-- ==== Sys2Proof/Word.lean ====
section
/-! DEFINITION. The widths of MEOW v0 (R5, R20, R50, R70): 32-bit register values, 16-bit instruction words, 8-bit
bytes, and the sixteen register numbers with their aliases (R21). -/

namespace Sys2Proof

/-- A register value or a byte address: 32 bits (R5, R20, R50). -/
abbrev Word := BitVec 32

/-- An instruction word: 16 bits (R70). -/
abbrev Half := BitVec 16

/-- A byte of memory: 8 bits (R50). -/
abbrev Byte := BitVec 8

/-- A register number, 0 to 15 (R20, R71). -/
abbrev Reg := Fin 16

/-- R11, alias `sp`: nothing implicit (R21). -/
abbrev Reg.sp : Reg := 11
/-- R12, alias `lr`: nothing implicit (R21). -/
abbrev Reg.lr : Reg := 12
/-- R13, alias `ir`: the fixed destination of LDI (R25). -/
abbrev Reg.ir : Reg := 13
/-- R14, alias `sr`: the status register (R26). -/
abbrev Reg.sr : Reg := 14
/-- R15, alias `pc`: the program counter (R31). -/
abbrev Reg.pc : Reg := 15

end Sys2Proof
end

