-- ==== Sys2Proof/Config.lean ====
section
/-! DEFINITION. The parameters the source leaves open (R6, table of `92_eei_decisions.md`). Each is a NAMED ARGUMENT of
the model: those a step reads are the plain data `Params`, held in State and written by no step (log 1); those a launch
fixes are `Launch`, the argument of `State.boot`. The defaults are the spec's own choice. -/

namespace Sys2Proof

/-- The mode, hidden one-bit state of R23: `normal` is 0 (bank 0 current), `interrupt` is 1 (bank 1 current). -/
inductive Mode where
  | normal
  | interrupt
deriving DecidableEq, Repr

/-- The other mode: its bank is the alternative bank (R23). -/
def Mode.other : Mode → Mode
  | .normal => .interrupt
  | .interrupt => .normal

/-- `BYTE_ORDER` (R52, D1): which bits of an instruction word the byte at the lower address holds. -/
inductive ByteOrder where
  /-- the lower address holds bits 7:0 (the default) -/
  | little
  /-- the lower address holds bits 15:8 -/
  | big
deriving DecidableEq, Repr

/-- `PC_WRITE_BIAS` (R33, D8): what is added to a value written to the current bank's R15 before the next fetch. -/
inductive PcWriteBias where
  /-- 0, the default -/
  | zero
  /-- 2, the reading that reproduces the prose's branch range (C3) -/
  | two
deriving DecidableEq, Repr

/-- `ADDSUB_IMM_EXT` (R82, D10, C1): how the immediates of ADD and SUB are widened. -/
inductive ImmExt where
  /-- zero extension, the default ("unsigned") -/
  | zero
  /-- sign extension (the Operation lines' `SignExtend`) -/
  | sign
deriving DecidableEq, Repr

/-- `CMP_C_COMPARE` (R130, R131, D11): the reading of the `>=` that sets C. -/
inductive CmpCompare where
  /-- unsigned, the default -/
  | unsigned
  /-- signed -/
  | signed
deriving DecidableEq, Repr

/-- `ASR_I_READ` (R10, R28, D14): what bit 0 of the alternative bank's R14 reads as. -/
inductive AsrIRead where
  /-- 1 exactly when the bank read is the interrupt bank, the default -/
  | bank
  /-- 1 exactly when the machine is in interrupt mode -/
  | mode
deriving DecidableEq, Repr

/-- The parameters of R6 that a step reads. -/
structure Params where
  byteOrder : ByteOrder
  pcWriteBias : PcWriteBias
  addSubImmExt : ImmExt
  cmpCCompare : CmpCompare
  asrIRead : AsrIRead
deriving DecidableEq, Repr

/-- The defaults of R6's table (the spec's own choice: D1, D8, D10, D11, D14). -/
def Params.default : Params :=
  { byteOrder := .little, pcWriteBias := .zero, addSubImmExt := .zero, cmpCCompare := .unsigned, asrIRead := .bank }

/-- What a launch fixes before the first instruction (R41, R200, R203): `RESET_PC`, `RESET_MODE`, the image of
`MEM_MAP` as bytes (log 6), the parameters, the drawn values of the registers whose reset value is unspecified (R201,
the draw option), and `IRQ_EVENTS` (log 8). -/
structure Launch where
  resetPc : Word
  resetMode : Mode
  image : List Host.Cell
  params : Params
  draw0 : Vector Word 16
  draw1 : Vector Word 16
  irqEvents : List Nat
deriving DecidableEq, Repr

/-- The launch `State.reset` stands for: default parameters, normal mode (D5), no image, no interrupt (D21), and, where
the spec gives no value at all, zero: `RESET_PC` (log 3) and every drawn register (log 2). DESIGN CHOICE, unsafe. -/
def Launch.default : Launch :=
  { resetPc := 0, resetMode := .normal, image := [], params := Params.default,
    draw0 := Vector.replicate 16 0, draw1 := Vector.replicate 16 0, irqEvents := [] }

end Sys2Proof
end

