-- ==== Sys2Proof/Syntax.lean ====
section
/-! DEFINITION. The instructions: one constructor per row of `opcode_table.json` (R72, R83). Operands are the fields of
the row's format (R73 to R81), register numbers as `Reg`, selector bits as `BankSel`, immediates as the bits the word
holds. The reserved and the undocumented rows are constructors too. -/

namespace Sys2Proof

/-- A one-bit bank selector: 0 the current bank, 1 the alternative bank (R24). -/
inductive BankSel where
  | current
  | alternative
deriving DecidableEq, Repr

/-- One constructor per row of the opcode table. -/
inductive Instr where
  /-- B with cond 0000 (R101). -/
  | beq (off : BitVec 9)
  /-- B with cond 0001. -/
  | bne (off : BitVec 9)
  /-- B with cond 0010; BHS is the same word (R94). -/
  | bcs (off : BitVec 9)
  /-- B with cond 0011; BLO is the same word (R94). -/
  | bcc (off : BitVec 9)
  /-- B with cond 0100. -/
  | bmi (off : BitVec 9)
  /-- B with cond 0101. -/
  | bpl (off : BitVec 9)
  /-- B with cond 0110. -/
  | bvs (off : BitVec 9)
  /-- B with cond 0111. -/
  | bvc (off : BitVec 9)
  /-- B with cond 1000. -/
  | bhi (off : BitVec 9)
  /-- B with cond 1001. -/
  | bls (off : BitVec 9)
  /-- B with cond 1010. -/
  | bge (off : BitVec 9)
  /-- B with cond 1011. -/
  | blt (off : BitVec 9)
  /-- B with cond 1100. -/
  | bgt (off : BitVec 9)
  /-- B with cond 1101. -/
  | ble (off : BitVec 9)
  /-- B with cond 1110; plain `B` is the same word (R94). -/
  | bal (off : BitVec 9)
  /-- B with cond 1111, the BNV extension space: reserved (R85, R102). -/
  | bnv (off : BitVec 9)
  /-- ADD(1) Rd, Rs, imm4 (R110). -/
  | add1 (rd : Reg) (imm : BitVec 4) (rs : Reg)
  /-- ADD(2) Rd, imm8 (R111). -/
  | add2 (rd : Reg) (imm : BitVec 8)
  /-- SUB(1) Rd, Rs, imm4 (R120). -/
  | sub1 (rd : Reg) (imm : BitVec 4) (rs : Reg)
  /-- SUB(2) Rd, imm8 (R121). -/
  | sub2 (rd : Reg) (imm : BitVec 8)
  /-- CMP(1) Rs, imm8 (R130). -/
  | cmp1 (rs : Reg) (imm : BitVec 8)
  /-- CMP(2) Rn, Rx with selectors Bn, Bx (R131). -/
  | cmp2 (rn : Reg) (bn bx : BankSel) (rx : Reg)
  /-- TST Rn, bit number, with selector Bn (R132). -/
  | tst (rn : Reg) (bn : BankSel) (imm : BitVec 5)
  /-- Bits 15:12 = 0111 with bit 6 = 1: unallocated (R86, R134). `w` is the word. -/
  | reserved0111 (w : Half)
  /-- MOV Rd, Rs with option bits B, W and selectors Bd, Bs (R140). -/
  | mov (rd : Reg) (optB optW : Bool) (bd bs : BankSel) (rs : Reg)
  /-- LDI imm12 (R141). -/
  | ldi (imm : BitVec 12)
  /-- LSH(1), A = 0, D = 0, R = 0: LSL Rd, imm5 (R96, R151). -/
  | lslImm (rd : Reg) (imm : BitVec 5)
  /-- LSH(1), A = 0, D = 1, R = 0: LSR Rd, imm5. -/
  | lsrImm (rd : Reg) (imm : BitVec 5)
  /-- LSH(1), A = 1, D = 0, R = 0: ASL Rd, imm5. -/
  | aslImm (rd : Reg) (imm : BitVec 5)
  /-- LSH(1), A = 1, D = 1, R = 0: ASR Rd, imm5. -/
  | asrImm (rd : Reg) (imm : BitVec 5)
  /-- LSH(1), A = 0, D = 0, R = 1: ROL Rd, imm5. -/
  | rolImm (rd : Reg) (imm : BitVec 5)
  /-- LSH(1), A = 0, D = 1, R = 1: ROR Rd, imm5. -/
  | rorImm (rd : Reg) (imm : BitVec 5)
  /-- LSH(1) with A = R = 1: reserved (R87, R153). `d` is the bit D. -/
  | lsh1Reserved (rd : Reg) (d : Bool) (imm : BitVec 5)
  /-- LSH(2), A = 0, D = 0, R = 0: LSL Rd, Rs (R96, R152). -/
  | lslReg (rd rs : Reg)
  /-- LSH(2), A = 0, D = 1, R = 0: LSR Rd, Rs. -/
  | lsrReg (rd rs : Reg)
  /-- LSH(2), A = 1, D = 0, R = 0: ASL Rd, Rs. -/
  | aslReg (rd rs : Reg)
  /-- LSH(2), A = 1, D = 1, R = 0: ASR Rd, Rs. -/
  | asrReg (rd rs : Reg)
  /-- LSH(2), A = 0, D = 0, R = 1: ROL Rd, Rs. -/
  | rolReg (rd rs : Reg)
  /-- LSH(2), A = 0, D = 1, R = 1: ROR Rd, Rs. -/
  | rorReg (rd rs : Reg)
  /-- LSH(2) with A = R = 1: reserved (R87, R153). `d` is the bit D. -/
  | lsh2Reserved (rd : Reg) (d : Bool) (rs : Reg)
  /-- Opcode 101 with bits 5:4 = 11: unallocated (R88, R154). `w` is the word. -/
  | reserved101 (w : Half)
  /-- Opcodes 110 and 111, BIT and MEM: undocumented (R89, R172). `w` is the word. -/
  | undocumented (w : Half)
deriving DecidableEq, Repr

end Sys2Proof
end

