-- ==== Sys2Proof/WellFormed.lean ====
section
/-! DEFINITION. Which terms of `Instr` are instructions of the machine. Every operand of a documented form is legal
(R22: every register number in every register field; an immediate is the bits of its field), so only the three rows that
carry their whole word are checked: the word must be one the row selects (masks and values of R86, R88, R89). -/

namespace Sys2Proof

/-- The term is an instruction the opcode map has (R83). -/
def Instr.WellFormed : Instr → Bool
  | .reserved0111 w => w &&& 0xF040#16 == 0x7040#16
  | .reserved101 w => w &&& 0xE030#16 == 0xA030#16
  | .undocumented w => w &&& 0xC000#16 == 0xC000#16
  | .beq _ | .bne _ | .bcs _ | .bcc _ | .bmi _ | .bpl _ | .bvs _ | .bvc _ => true
  | .bhi _ | .bls _ | .bge _ | .blt _ | .bgt _ | .ble _ | .bal _ | .bnv _ => true
  | .add1 _ _ _ | .add2 _ _ | .sub1 _ _ _ | .sub2 _ _ => true
  | .cmp1 _ _ | .cmp2 _ _ _ _ | .tst _ _ _ => true
  | .mov _ _ _ _ _ _ | .ldi _ => true
  | .lslImm _ _ | .lsrImm _ _ | .aslImm _ _ | .asrImm _ _ | .rolImm _ _ | .rorImm _ _ => true
  | .lsh1Reserved _ _ _ => true
  | .lslReg _ _ | .lsrReg _ _ | .aslReg _ _ | .asrReg _ _ | .rolReg _ _ | .rorReg _ _ => true
  | .lsh2Reserved _ _ _ => true

end Sys2Proof
end

