-- ==== Sys2Proof/Decode.lean ====
section
/-! DEFINITION. Decoding (R83, R84) and, after it, encoding (R73 to R81). Decoding reads nothing but the 16-bit word, and
every one of the 65536 words is some row of the opcode map, so `decodeWord` is total; `decode` reads a word from bytes in
the launch's byte order (R52) and rejects, by name, bytes that are too few. -/

namespace Sys2Proof

/-- The `n` bits of `w` from bit `lo` up: `w[lo+n-1:lo]` (R9). -/
def field (w : Half) (lo n : Nat) : BitVec n :=
  w.extractLsb' lo n

/-- A 4-bit register field as a register number (R71). -/
def regField (w : Half) (lo : Nat) : Reg :=
  (field w lo 4).toFin

/-- A selector bit as a bank selector (R24). -/
def selField (w : Half) (at_ : Nat) : BankSel :=
  if w.getLsbD at_ then .alternative else .current

/-- Opcode 000: the condition in bits 12:9, the offset in bits 8:0 (R73, R94, R100). -/
def decodeBranch (w : Half) : Instr :=
  match (field w 9 4).toNat with
  | 0 => .beq (field w 0 9)
  | 1 => .bne (field w 0 9)
  | 2 => .bcs (field w 0 9)
  | 3 => .bcc (field w 0 9)
  | 4 => .bmi (field w 0 9)
  | 5 => .bpl (field w 0 9)
  | 6 => .bvs (field w 0 9)
  | 7 => .bvc (field w 0 9)
  | 8 => .bhi (field w 0 9)
  | 9 => .bls (field w 0 9)
  | 10 => .bge (field w 0 9)
  | 11 => .blt (field w 0 9)
  | 12 => .bgt (field w 0 9)
  | 13 => .ble (field w 0 9)
  | 14 => .bal (field w 0 9)
  | _ => .bnv (field w 0 9)

/-- Opcode 011: CMP(1) when bit 12 is 0; else bit 6 = 1 is unallocated and bit 7 tells CMP(2) from TST
(R75 to R77, R83, R86). -/
def decodeCompare (w : Half) : Instr :=
  if w.getLsbD 12 then
    if w.getLsbD 6 then .reserved0111 w
    else if w.getLsbD 7 then .tst (regField w 8) (selField w 5) (field w 0 5)
    else .cmp2 (regField w 8) (selField w 5) (selField w 4) (regField w 0)
  else .cmp1 (regField w 8) (field w 0 8)

/-- Opcode 101: bit 5 tells LSH(1) from LSH(2), bits 5:4 = 11 are unallocated, and A, D, R (bits 12, 7, 6) name the
operation (R80, R81, R87, R88, R96). -/
def decodeShift (w : Half) : Instr :=
  if w.getLsbD 5 then
    if w.getLsbD 4 then .reserved101 w
    else
      match w.getLsbD 12, w.getLsbD 7, w.getLsbD 6 with
      | false, false, false => .lslReg (regField w 8) (regField w 0)
      | false, true, false => .lsrReg (regField w 8) (regField w 0)
      | true, false, false => .aslReg (regField w 8) (regField w 0)
      | true, true, false => .asrReg (regField w 8) (regField w 0)
      | false, false, true => .rolReg (regField w 8) (regField w 0)
      | false, true, true => .rorReg (regField w 8) (regField w 0)
      | true, d, true => .lsh2Reserved (regField w 8) d (regField w 0)
  else
    match w.getLsbD 12, w.getLsbD 7, w.getLsbD 6 with
    | false, false, false => .lslImm (regField w 8) (field w 0 5)
    | false, true, false => .lsrImm (regField w 8) (field w 0 5)
    | true, false, false => .aslImm (regField w 8) (field w 0 5)
    | true, true, false => .asrImm (regField w 8) (field w 0 5)
    | false, false, true => .rolImm (regField w 8) (field w 0 5)
    | false, true, true => .rorImm (regField w 8) (field w 0 5)
    | true, d, true => .lsh1Reserved (regField w 8) d (field w 0 5)

/-- The instruction a 16-bit word is (R83, R84): the opcode in bits 15:13, then the fixed bits of the figures. -/
def decodeWord (w : Half) : Instr :=
  match (field w 13 3).toNat with
  | 0 => decodeBranch w
  | 1 =>
    if w.getLsbD 12 then .add2 (regField w 8) (field w 0 8)
    else .add1 (regField w 8) (field w 4 4) (regField w 0)
  | 2 =>
    if w.getLsbD 12 then .sub2 (regField w 8) (field w 0 8)
    else .sub1 (regField w 8) (field w 4 4) (regField w 0)
  | 3 => decodeCompare w
  | 4 =>
    if w.getLsbD 12 then .ldi (field w 0 12)
    else
      .mov (regField w 8) (w.getLsbD 7) (w.getLsbD 6) (selField w 5) (selField w 4) (regField w 0)
  | 5 => decodeShift w
  | _ => .undocumented w

/-- The instruction word held by two bytes, the one at the lower address first (R52, R62). -/
def wordOfBytes : ByteOrder → Byte → Byte → Half
  | .little, b0, b1 => (b1 ++ b0 : BitVec (8 + 8))
  | .big, b0, b1 => (b0 ++ b1 : BitVec (8 + 8))

/-- The two bytes that hold an instruction word, the one at the lower address first (R52, R62). -/
def bytesOfWord : ByteOrder → Half → List Byte
  | .little, w => [field w 0 8, field w 8 8]
  | .big, w => [field w 8 8, field w 0 8]

/-- Why bytes are no instruction. -/
inductive DecodeError where
  /-- Fewer than the two bytes an instruction takes (R70). -/
  | truncated
deriving DecidableEq, Repr

/-- The instruction at the head of a byte sequence, and the bytes after it: every instruction is one 16-bit word
(R70, R91). -/
def decode (o : ByteOrder) : List Byte → Except DecodeError (Instr × List Byte)
  | b0 :: b1 :: rest => .ok (decodeWord (wordOfBytes o b0 b1), rest)
  | _ => .error .truncated

/-- The instruction word whose bits are the low `nbits` of `w`, bit 0 least significant, every bit above them 0. -/
def tableWord (nbits w : Nat) : Half :=
  BitVec.ofNat 16 (w % 2 ^ nbits)

/-- The instruction the decoder reads from a table row's word, laid out as the default byte order stores it. -/
def decodeTableWord (nbits w : Nat) : Option Instr :=
  match decode .little (bytesOfWord .little (tableWord nbits w)) with
  | .ok (i, _) => some i
  | .error _ => none

/-! ### Encoding -/

/-- A register number as its 4-bit field (R71). -/
def regBits (r : Reg) : BitVec 4 :=
  BitVec.ofFin r

/-- A bank selector as its bit (R24). -/
def selBit : BankSel → BitVec 1
  | .current => 0#1
  | .alternative => 1#1

/-- Format B (R73): 000, cond, offset. -/
def encodeB (cond : BitVec 4) (off : BitVec 9) : Half :=
  (0b000#3 ++ cond ++ off : BitVec (3 + 4 + 9))

/-- Format LSH1 (R80): 101, A, Rd, D, R, 0, immed. -/
def encodeLsh1 (a d r : Bool) (rd : Reg) (imm : BitVec 5) : Half :=
  (0b101#3 ++ BitVec.ofBool a ++ regBits rd ++ BitVec.ofBool d ++ BitVec.ofBool r ++ 0b0#1 ++ imm :
    BitVec (3 + 1 + 4 + 1 + 1 + 1 + 5))

/-- Format LSH2 (R81): 101, A, Rd, D, R, 10, Rs. -/
def encodeLsh2 (a d r : Bool) (rd rs : Reg) : Half :=
  (0b101#3 ++ BitVec.ofBool a ++ regBits rd ++ BitVec.ofBool d ++ BitVec.ofBool r ++ 0b10#2 ++ regBits rs :
    BitVec (3 + 1 + 4 + 1 + 1 + 2 + 4))

/-- The word of an instruction: the figures of R73 to R81, most significant box first, and the words themselves for the
rows that carry theirs. -/
def encode : Instr → Half
  | .beq off => encodeB 0b0000#4 off
  | .bne off => encodeB 0b0001#4 off
  | .bcs off => encodeB 0b0010#4 off
  | .bcc off => encodeB 0b0011#4 off
  | .bmi off => encodeB 0b0100#4 off
  | .bpl off => encodeB 0b0101#4 off
  | .bvs off => encodeB 0b0110#4 off
  | .bvc off => encodeB 0b0111#4 off
  | .bhi off => encodeB 0b1000#4 off
  | .bls off => encodeB 0b1001#4 off
  | .bge off => encodeB 0b1010#4 off
  | .blt off => encodeB 0b1011#4 off
  | .bgt off => encodeB 0b1100#4 off
  | .ble off => encodeB 0b1101#4 off
  | .bal off => encodeB 0b1110#4 off
  | .bnv off => encodeB 0b1111#4 off
  | .add1 rd imm rs => (0b0010#4 ++ regBits rd ++ imm ++ regBits rs : BitVec (4 + 4 + 4 + 4))
  | .add2 rd imm => (0b0011#4 ++ regBits rd ++ imm : BitVec (4 + 4 + 8))
  | .sub1 rd imm rs => (0b0100#4 ++ regBits rd ++ imm ++ regBits rs : BitVec (4 + 4 + 4 + 4))
  | .sub2 rd imm => (0b0101#4 ++ regBits rd ++ imm : BitVec (4 + 4 + 8))
  | .cmp1 rs imm => (0b0110#4 ++ regBits rs ++ imm : BitVec (4 + 4 + 8))
  | .cmp2 rn bn bx rx => (0b0111#4 ++ regBits rn ++ 0b00#2 ++ selBit bn ++ selBit bx ++ regBits rx : BitVec (4 + 4 + 2 + 1 + 1 + 4))
  | .tst rn bn imm => (0b0111#4 ++ regBits rn ++ 0b10#2 ++ selBit bn ++ imm : BitVec (4 + 4 + 2 + 1 + 5))
  | .reserved0111 w => w
  | .mov rd optB optW bd bs rs =>
    (0b1000#4 ++ regBits rd ++ BitVec.ofBool optB ++ BitVec.ofBool optW ++ selBit bd ++ selBit bs ++ regBits rs :
      BitVec (4 + 4 + 1 + 1 + 1 + 1 + 4))
  | .ldi imm => (0b1001#4 ++ imm : BitVec (4 + 12))
  | .lslImm rd imm => encodeLsh1 false false false rd imm
  | .lsrImm rd imm => encodeLsh1 false true false rd imm
  | .aslImm rd imm => encodeLsh1 true false false rd imm
  | .asrImm rd imm => encodeLsh1 true true false rd imm
  | .rolImm rd imm => encodeLsh1 false false true rd imm
  | .rorImm rd imm => encodeLsh1 false true true rd imm
  | .lsh1Reserved rd d imm => encodeLsh1 true d true rd imm
  | .lslReg rd rs => encodeLsh2 false false false rd rs
  | .lsrReg rd rs => encodeLsh2 false true false rd rs
  | .aslReg rd rs => encodeLsh2 true false false rd rs
  | .asrReg rd rs => encodeLsh2 true true false rd rs
  | .rolReg rd rs => encodeLsh2 false false true rd rs
  | .rorReg rd rs => encodeLsh2 false true true rd rs
  | .lsh2Reserved rd d rs => encodeLsh2 true d true rd rs
  | .reserved101 w => w
  | .undocumented w => w

end Sys2Proof
end

