-- ==== Sys2Proof/Machine/State.lean ====
section
/-! DEFINITION. The state of MEOW v0 (the table that opens `10_state.md`): two banks of sixteen registers, the mode, the
memory; beside them the launch's arguments a step reads (the parameters of R6, and the interrupt-entry events). The
status register and the program counter are registers 14 and 15 of each bank, not extra state (R26, R31). The sticky
outcome of R40 is the three-way answer of `step`, not a field (log 24). -/

namespace Sys2Proof.Machine

open Sys2Proof

/-- Memory (R50, R55): the bytes the launch admitted, by rising byte address. An address that is not listed holds no
value: a fetch that needs it is not admitted (R55, log 6). -/
abbrev Memory := List Host.Cell

/-- The state of the machine. -/
structure State where
  /-- `bank[0][0..15]`, current in normal mode (R20, R23). -/
  bank0 : Vector Word 16
  /-- `bank[1][0..15]`, current in interrupt mode (R20, R23). -/
  bank1 : Vector Word 16
  /-- `mode` (R23). -/
  mode : Mode
  /-- Memory, 2^32 byte addresses (R38, R50). -/
  mem : Memory
  /-- `IRQ_EVENTS` (R183): how many instructions complete before each event is offered, next event first (log 8). -/
  irq : List Nat
  /-- The parameters of R6 that a step reads; written by no step (log 1). -/
  params : Params
deriving DecidableEq, Repr

/-- The faults of the model (R181). None is an architected trap: each marks behaviour the source calls UNDEFINED,
reserves or leaves out (R180), changes no state, and is safe: it stops the model where hardware may go on. -/
inductive Fault where
  /-- `UndefinedPcBit0(v)`: an odd value written to R15 of either bank (R11, R34), raised by the write, and by a fetch
  at an odd pc, which no run reaches. Safe. -/
  | undefinedPcBit0 (v : Word)
  /-- `ShiftAmountUndefined(n)`: LSH(2) with an amount above 31 (R152), raised by the LSH(2) meanings. Safe. -/
  | shiftAmountUndefined (n : Word)
  /-- `ReservedEncoding(w)`: a reserved or unallocated word (R85 to R88), raised by its row's meaning. Safe. -/
  | reservedEncoding (w : Half)
  /-- `FetchNotAdmitted(a)`: a fetch at an address the launch image does not admit (R55), raised by the fetch. Safe. -/
  | fetchNotAdmitted (a : Word)
deriving DecidableEq, Repr

/-- The refusals of the model (R182). -/
inductive Refusal where
  /-- An instruction that has no meaning here yet, raised by the dispatch alone. Safe. -/
  | notModelled (mnemonic : String)
  /-- `UndocumentedOpcode(w)`: opcodes 110 and 111, BIT and MEM, whose behaviour no source gives (R172), raised by that
  row's meaning. Safe. -/
  | undocumentedOpcode (w : Half)
deriving DecidableEq, Repr

/-- The answer of one step or one instruction. -/
abbrev Outcome := Host.Outcome State Fault Refusal

/-- Bit 0 of an R14 is not storage (R28): what a bank stores of a value drawn for it. -/
def drawnBank (draw : Vector Word 16) : Vector Word 16 :=
  draw.set 14 (draw[14] &&& 0xFFFFFFFE#32)

/-- The machine right after reset under launch `l` (R200): the mode is RESET_MODE, R15 of its bank is RESET_PC, memory
is the image, and every other register of both banks holds the value drawn for it (R201, the draw option). -/
def State.boot (l : Launch) : State :=
  { bank0 :=
      match l.resetMode with
      | .normal => (drawnBank l.draw0).set 15 l.resetPc
      | .interrupt => drawnBank l.draw0
    bank1 :=
      match l.resetMode with
      | .normal => drawnBank l.draw1
      | .interrupt => (drawnBank l.draw1).set 15 l.resetPc
    mode := l.resetMode
    mem := l.image
    irq := l.irqEvents
    params := l.params }

/-- The machine right after reset, under the default launch: the spec's defaults (R6), no memory listed, and zero where
the spec gives no value (logs 2 and 3: DESIGN CHOICE, unsafe). -/
def State.reset : State :=
  State.boot Launch.default

end Sys2Proof.Machine
end

