-- ==== Sys2Proof/Machine/Ops.lean ====
section
/-! DEFINITION. The named operations: the stored registers, memory (R50, R62), the instruction fetch (R51), register
reads and writes (R10, R11), the pc's advance and its explicit write (R32, R33), and interrupt entry (R184), the one
exception-like event the spec describes. No return is documented (R186). -/

namespace Sys2Proof.Machine

open Sys2Proof

/-! ### Stored registers -/

/-- `bank[m]` (R20, R23). -/
def State.bank (s : State) : Mode → Vector Word 16
  | .normal => s.bank0
  | .interrupt => s.bank1

/-- `bank[m][r]`, the stored value (R20). -/
def State.reg (s : State) (m : Mode) (r : Reg) : Word :=
  (s.bank m)[r]

/-- `bank[m][r] <- v`, the stored value, with none of the special cases of R11. -/
def State.setReg (s : State) (m : Mode) (r : Reg) (v : Word) : State :=
  match m with
  | .normal => { s with bank0 := s.bank0.set r v }
  | .interrupt => { s with bank1 := s.bank1.set r v }

/-- The address of the executing instruction: the stored R15 of the current bank (R31). -/
def State.pc (s : State) : Word :=
  s.reg s.mode Reg.pc

/-- `v` with bit 0 replaced (R10, R28). -/
def withBit0 (v : Word) (b : Bool) : Word :=
  (v.extractLsb' 1 31 ++ BitVec.ofBool b : BitVec (31 + 1))

/-! ### Memory -/

/-- The canonical form: addresses strictly rising, each a 32-bit address. Every listed byte differs from what an
unlisted address reads as, which is no value at all (log 6). -/
def Memory.wf : Memory → Bool
  | [] => true
  | [(a, _)] => a < 2 ^ 32
  | (a, _) :: (b, y) :: rest => a < b && Memory.wf ((b, y) :: rest)

/-- The byte at address `a`, or none where the launch admitted none (R50, R55). -/
def Memory.read : Memory → Nat → Option Byte
  | [], _ => none
  | (b, x) :: rest, a => if a = b then some x else Memory.read rest a

/-- The memory with byte `v` at address `a`, in canonical form. -/
def Memory.write : Memory → Nat → Byte → Memory
  | [], a, v => [(a, v)]
  | (b, x) :: rest, a, v =>
    if a < b then (a, v) :: (b, x) :: rest
    else if a = b then (a, v) :: rest
    else (b, x) :: Memory.write rest a v

/-- The `n` bytes at `a`, `a+1`, ..., each address modulo 2^32, lowest address first; none where one of them is not
admitted (R62). -/
def Memory.readBytes (m : Memory) (a : Word) : Nat → Option (List Byte)
  | 0 => some []
  | n + 1 =>
    match Memory.read m a.toNat, Memory.readBytes m (a + 1) n with
    | some b, some bs => some (b :: bs)
    | _, _ => none

/-- The memory with the bytes `bs` at `a`, `a+1`, ..., each address modulo 2^32 (R62). -/
def Memory.writeBytes (m : Memory) (a : Word) : List Byte → Memory
  | [] => m
  | b :: bs => Memory.writeBytes (Memory.write m a.toNat b) (a + 1) bs

/-- The number a list of bytes is when the first holds the lowest bits. -/
def bytesToNat : List Byte → Nat
  | [] => 0
  | b :: bs => b.toNat + 256 * bytesToNat bs

/-- The low `n` bytes of a number, lowest first. -/
def natToBytes : Nat → Nat → List Byte
  | 0, _ => []
  | n + 1, v => BitVec.ofNat 8 v :: natToBytes n (v / 256)

/-- Bytes in address order, put lowest-significance first (R52, R62). -/
def arrangeBytes : ByteOrder → List Byte → List Byte
  | .little, bs => bs
  | .big, bs => bs.reverse

/-- `MemRead(a, n)` (R62): the `n` bytes at `a` up, combined by `BYTE_ORDER`. -/
def memRead (o : ByteOrder) (m : Memory) (a : Word) (n : Nat) : Option Nat :=
  (Memory.readBytes m a n).map fun bs => bytesToNat (arrangeBytes o bs)

/-- `MemWrite(a, n, v)` (R62): the low `n` bytes of `v` at `a` up, by `BYTE_ORDER`. No instruction calls it (R54). -/
def memWrite (o : ByteOrder) (m : Memory) (a : Word) (n v : Nat) : Memory :=
  Memory.writeBytes m a (arrangeBytes o (natToBytes n v))

/-- A launch image (R55, R203): each word stored at its address in the launch's byte order. -/
def loadImage (o : ByteOrder) : List (Word × Half) → Memory
  | [] => []
  | (a, w) :: rest => memWrite o (loadImage o rest) a 2 w.toNat

/-- `FetchHalf(pc)` (R51): the instruction word at the pc. An odd pc has no meaning (R34); an address the image does not
admit faults (R55). -/
def State.fetch (s : State) : Except Fault Half :=
  if s.pc.getLsbD 0 then .error (.undefinedPcBit0 s.pc)
  else
    match memRead s.params.byteOrder s.mem s.pc 2 with
    | some n => .ok (BitVec.ofNat 16 n)
    | none => .error (.fetchNotAdmitted s.pc)

/-! ### Register reads (R10) -/

/-- `x[r]`: a register of the current bank; R14 reads bit 0 as the mode (R28), R15 is the executing instruction's own
address (R31, R205). -/
def State.readCur (s : State) (r : Reg) : Word :=
  if r = Reg.sr then withBit0 (s.reg s.mode r) (s.mode == .interrupt)
  else s.reg s.mode r

/-- What bit 0 of the alternative bank's R14 reads as: `ASR_I_READ` (R10, R28, D14). -/
def State.altIBit (s : State) : Bool :=
  match s.params.asrIRead with
  | .bank => s.mode.other == .interrupt
  | .mode => s.mode == .interrupt

/-- `ax[r]`: a register of the alternative bank; its R15 is a stored value only (R10, R36). -/
def State.readAlt (s : State) (r : Reg) : Word :=
  if r = Reg.sr then withBit0 (s.reg s.mode.other r) s.altIBit
  else s.reg s.mode.other r

/-- `xr(b, r)` (R9). -/
def State.readSel (s : State) (b : BankSel) (r : Reg) : Word :=
  match b with
  | .current => s.readCur r
  | .alternative => s.readAlt r

/-! ### The program counter and register writes (R11, R32, R33) -/

/-- The mode whose bank a selector names (R11: `bank[mode XOR b]`). -/
def State.selMode (s : State) (b : BankSel) : Mode :=
  match b with
  | .current => s.mode
  | .alternative => s.mode.other

/-- The sequential advance: `bank[mode][15] <- pc + 2`, modulo 2^32 (R32, R35). -/
def State.advance (s : State) : State :=
  s.setReg s.mode Reg.pc (s.pc + 2)

/-- `PC_WRITE_BIAS` as a number of bytes (R33, D8). -/
def biasOf : PcWriteBias → Word
  | .zero => 0
  | .two => 2

/-- The control transfer to `v`: the next instruction is fetched, and reads its own address, at `v + PC_WRITE_BIAS`
(R11, R33, log 11). -/
def State.jump (s : State) (v : Word) : State :=
  s.setReg s.mode Reg.pc (v + biasOf s.params.pcWriteBias)

/-- What R14 and R0 to R13 store of a written value: bit 0 of R14 is discarded (R11, R28). -/
def storedValue (r : Reg) (v : Word) : Word :=
  if r = Reg.sr then withBit0 v false else v

/-- `xr(b, r) <- v` as the last act of an instruction (R11): an odd value for R15 of either bank faults (R34, D9), a
write of the current bank's R15 is a control transfer (R33), and any other write is followed by the sequential advance
(R32, R36). -/
def State.writeSel (s : State) (b : BankSel) (r : Reg) (v : Word) : Outcome :=
  if r = Reg.pc then
    if v.getLsbD 0 then .fault (.undefinedPcBit0 v)
    else
      match b with
      | .current => .next (s.jump v)
      | .alternative => .next (s.setReg s.mode.other Reg.pc v).advance
  else .next (s.setReg (s.selMode b) r (storedValue r v)).advance

/-! ### Interrupt entry (R183 to R187) -/

/-- An interrupt-entry event is offered and can be taken: only between instructions and only in normal mode
(R185, R187, D21). -/
def State.irqDue (s : State) : Bool :=
  match s.mode, s.irq with
  | .normal, 0 :: _ => true
  | _, _ => false

/-- Interrupt entry (R184): `mode <- 1`, and nothing else of the machine changes. The whole interrupted register set, pc
and sr included, stays in bank 0; the handler runs from whatever `bank[1][15]` holds. The event leaves the stream. -/
def State.enterInterrupt (s : State) : State :=
  { s with mode := .interrupt, irq := s.irq.tail }

/-- One instruction has completed: the next event is one instruction nearer. An event already offered stays in the
stream (R187, log 8). -/
def State.tickIrq (s : State) : State :=
  match s.irq with
  | (n + 1) :: rest => { s with irq := n :: rest }
  | _ => s

end Sys2Proof.Machine
end

