-- ==== Sys2Proof/Machine/Operands.lean ====
section
/-! DEFINITION. The operand values and the data operations of the instructions: the immediates of R82, MOV's byte and
halfword swaps (R140), TST's mask (R132) and the shift function (R150). -/

namespace Sys2Proof.Machine

open Sys2Proof

/-- The immediate of ADD and SUB, zero- or sign-extended by `ADDSUB_IMM_EXT` (R82, D10, C1). -/
def addSubImm (e : ImmExt) {n : Nat} (imm : BitVec n) : Word :=
  match e with
  | .zero => imm.setWidth 32
  | .sign => imm.signExtend 32

/-- The immediate of CMP(1) and LDI: sign-extended (R82, R130, R141). -/
def signedImm {n : Nat} (imm : BitVec n) : Word :=
  imm.signExtend 32

/-- B's offset in bytes: the 9-bit field counts halfwords (R82, R101). -/
def branchOffset (off : BitVec 9) : Word :=
  off.signExtend 32 <<< 1

/-- TST's mask `1 << immed` (R132). -/
def bitMask (imm : BitVec 5) : Word :=
  1#32 <<< imm.toNat

/-- MOV's B step: each byte swapped with its neighbour (R140). -/
def swapBytes (x : Word) : Word :=
  ((x &&& 0xFF00FF00#32) >>> 8) ||| ((x &&& 0x00FF00FF#32) <<< 8)

/-- MOV's W step: the two halves swapped (R140). -/
def swapHalves (x : Word) : Word :=
  (x <<< 16) ||| (x >>> 16)

/-- What MOV moves: the B step first, the W step second (R140). -/
def movValue (optB optW : Bool) (x : Word) : Word :=
  let y := if optB then swapBytes x else x
  if optW then swapHalves y else y

/-- The six shift operations by mnemonic (R96). -/
inductive ShiftOp where
  | lsl
  | lsr
  | asl
  | asr
  | rol
  | ror
deriving DecidableEq, Repr

/-- `Shift(A, D, R, x, n)` of R150 for an amount 0 to 31. The source gives the bits their roles and no Operation; what
each computes is the spec's D16, from general knowledge (PRESUMED, log 21). -/
def shift (op : ShiftOp) (x : Word) (n : Nat) : Word :=
  if n = 0 then x
  else
    match op with
    | .lsl => x <<< n
    | .lsr => x >>> n
    | .asl => x <<< n
    | .asr => x.sshiftRight n
    | .rol => (x <<< n) ||| (x >>> (32 - n))
    | .ror => (x >>> n) ||| (x <<< (32 - n))

end Sys2Proof.Machine
end

