-- ==== Sys2Proof/Machine/Arith.lean ====
section
/-! DEFINITION. ADD(1), ADD(2), SUB(1), SUB(2) (R110 to R112, R120, R121): arithmetic modulo 2^32 on the current bank;
no flag is written (R29, D12). -/

namespace Sys2Proof.Machine

open Sys2Proof

/-- ADD(1) (R110): `Rd <- Rd + Rs + immed`. -/
def execAdd1 (rd : Reg) (imm : BitVec 4) (rs : Reg) (s : State) : Outcome :=
  s.writeSel .current rd (s.readCur rd + s.readCur rs + addSubImm s.params.addSubImmExt imm)

/-- ADD(2) (R111): `Rd <- Rd + immed`. -/
def execAdd2 (rd : Reg) (imm : BitVec 8) (s : State) : Outcome :=
  s.writeSel .current rd (s.readCur rd + addSubImm s.params.addSubImmExt imm)

/-- SUB(1) (R120): `Rd <- Rd - Rs - immed`. -/
def execSub1 (rd : Reg) (imm : BitVec 4) (rs : Reg) (s : State) : Outcome :=
  s.writeSel .current rd (s.readCur rd - s.readCur rs - addSubImm s.params.addSubImmExt imm)

/-- SUB(2) (R121): `Rd <- Rd - immed`. -/
def execSub2 (rd : Reg) (imm : BitVec 8) (s : State) : Outcome :=
  s.writeSel .current rd (s.readCur rd - addSubImm s.params.addSubImmExt imm)

end Sys2Proof.Machine
end

