-- ==== Sys2Proof/Machine/Flags.lean ====
section
/-! DEFINITION. The condition flags (R26, R29), the comparisons that write them (R130 to R132, R12) and the conditions
that read them (R100). -/

namespace Sys2Proof.Machine

open Sys2Proof

/-- N, Z, C, V: bits 31, 30, 29, 28 of an sr (R26). N means negative (C4, D28). -/
structure Flags where
  n : Bool
  z : Bool
  c : Bool
  v : Bool
deriving DecidableEq, Repr

/-- The flags an sr value holds (R26). -/
def flagsOf (sr : Word) : Flags :=
  { n := sr.getLsbD 31, z := sr.getLsbD 30, c := sr.getLsbD 29, v := sr.getLsbD 28 }

/-- An sr value with its flags replaced; bits 27:0 stay as they are (R27, R29). -/
def withFlags (sr : Word) (f : Flags) : Word :=
  (BitVec.ofBool f.n ++ BitVec.ofBool f.z ++ BitVec.ofBool f.c ++ BitVec.ofBool f.v ++ sr.extractLsb' 0 28 :
    BitVec (1 + 1 + 1 + 1 + 28))

/-- The flags of the current bank's sr (R29, D15). -/
def State.flags (s : State) : Flags :=
  flagsOf (s.reg s.mode Reg.sr)

/-- The flags written to the current bank's sr, whichever bank the operands came from (R29, D15). -/
def State.setFlags (s : State) (f : Flags) : State :=
  s.setReg s.mode Reg.sr (withFlags (s.reg s.mode Reg.sr) f)

/-- `OverflowFrom(a - b)`: the signed overflow of the 32-bit subtraction (R12, D29). -/
def overflowFromSub (a b : Word) : Bool :=
  a.msb != b.msb && (a - b).msb != a.msb

/-- The `b >= a` that sets C, unsigned or signed by `CMP_C_COMPARE` (R130, R131, D11). -/
def compareC (k : CmpCompare) (a b : Word) : Bool :=
  match k with
  | .unsigned => a.ule b
  | .signed => a.sle b

/-- The four flags of `CMP a, b` (R130, R131): N and Z of the difference, C from `b >= a` and not from a carry (C5,
R133), V from the subtraction's signed overflow. -/
def cmpFlags (k : CmpCompare) (a b : Word) : Flags :=
  { n := (a - b).msb, z := a - b == 0#32, c := compareC k a b, v := overflowFromSub a b }

/-- The flags of TST with result `alu` (R132): N and Z; C and V keep their values (C8). -/
def tstFlags (old : Flags) (alu : Word) : Flags :=
  { old with n := alu.msb, z := alu == 0#32 }

/-- The fifteen conditions of B (R94, R100). -/
inductive Cond where
  | eq
  | ne
  | cs
  | cc
  | mi
  | pl
  | vs
  | vc
  | hi
  | ls
  | ge
  | lt
  | gt
  | le
  | al
deriving DecidableEq, Repr

/-- `CondHolds(cond)`: the table of R100. -/
def condHolds (k : Cond) (f : Flags) : Bool :=
  match k with
  | .eq => f.z
  | .ne => !f.z
  | .cs => f.c
  | .cc => !f.c
  | .mi => f.n
  | .pl => !f.n
  | .vs => f.v
  | .vc => !f.v
  | .hi => f.c && !f.z
  | .ls => !f.c || f.z
  | .ge => f.n == f.v
  | .lt => f.n != f.v
  | .gt => f.n == f.v && !f.z
  | .le => f.n != f.v || f.z
  | .al => true

end Sys2Proof.Machine
end

