-- ==== Sys2Proof/Machine/Branch.lean ====
section
/-! DEFINITION. B, the branch (R100 to R102): fifteen conditions, and the reserved sixteenth. -/

namespace Sys2Proof.Machine

open Sys2Proof

/-- B (R101): a control transfer to the branch's own address plus the offset when the condition holds, else the
sequential advance. -/
def branch (k : Cond) (off : BitVec 9) (s : State) : Outcome :=
  if condHolds k s.flags then s.writeSel .current Reg.pc (s.readCur Reg.pc + branchOffset off)
  else .next s.advance

/-- BEQ: Z = 1 (R100, R101). -/
def execBeq (off : BitVec 9) (s : State) : Outcome := branch .eq off s

/-- BNE: Z = 0. -/
def execBne (off : BitVec 9) (s : State) : Outcome := branch .ne off s

/-- BCS, also BHS: C = 1. -/
def execBcs (off : BitVec 9) (s : State) : Outcome := branch .cs off s

/-- BCC, also BLO: C = 0. -/
def execBcc (off : BitVec 9) (s : State) : Outcome := branch .cc off s

/-- BMI: N = 1. -/
def execBmi (off : BitVec 9) (s : State) : Outcome := branch .mi off s

/-- BPL: N = 0. -/
def execBpl (off : BitVec 9) (s : State) : Outcome := branch .pl off s

/-- BVS: V = 1. -/
def execBvs (off : BitVec 9) (s : State) : Outcome := branch .vs off s

/-- BVC: V = 0. -/
def execBvc (off : BitVec 9) (s : State) : Outcome := branch .vc off s

/-- BHI: C = 1 and Z = 0. -/
def execBhi (off : BitVec 9) (s : State) : Outcome := branch .hi off s

/-- BLS: C = 0 or Z = 1. -/
def execBls (off : BitVec 9) (s : State) : Outcome := branch .ls off s

/-- BGE: N = V. -/
def execBge (off : BitVec 9) (s : State) : Outcome := branch .ge off s

/-- BLT: N and V differ. -/
def execBlt (off : BitVec 9) (s : State) : Outcome := branch .lt off s

/-- BGT: N = V and Z = 0. -/
def execBgt (off : BitVec 9) (s : State) : Outcome := branch .gt off s

/-- BLE: N and V differ, or Z = 1. -/
def execBle (off : BitVec 9) (s : State) : Outcome := branch .le off s

/-- BAL, also plain B: always, without reading sr (R100, D31). -/
def execBal (off : BitVec 9) (s : State) : Outcome := branch .al off s

end Sys2Proof.Machine
end

