-- ==== Sys2Proof/Machine/Compare.lean ====
section
/-! DEFINITION. CMP(1), CMP(2), TST (R130 to R133): they write flags of the current bank's sr and nothing else. -/

namespace Sys2Proof.Machine

open Sys2Proof

/-- `CMP a, b` (R130, R131): all four flags, then the sequential advance. -/
def State.compare (s : State) (a b : Word) : Outcome :=
  .next (s.setFlags (cmpFlags s.params.cmpCCompare a b)).advance

/-- CMP(1) (R130): a register of the current bank against a signed 8-bit immediate. -/
def execCmp1 (rs : Reg) (imm : BitVec 8) (s : State) : Outcome :=
  s.compare (s.readCur rs) (signedImm imm)

/-- CMP(2) (R131): two registers, each of either bank. -/
def execCmp2 (rn : Reg) (bn bx : BankSel) (rx : Reg) (s : State) : Outcome :=
  s.compare (s.readSel bn rn) (s.readSel bx rx)

/-- TST (R132): one bit of a register of either bank; N and Z are written, C and V are kept. -/
def execTst (rn : Reg) (bn : BankSel) (imm : BitVec 5) (s : State) : Outcome :=
  .next (s.setFlags (tstFlags s.flags (s.readSel bn rn &&& bitMask imm))).advance

end Sys2Proof.Machine
end

