-- ==== Sys2Proof/Machine/Move.lean ====
section
/-! DEFINITION. MOV and LDI (R140, R141). MOV alone writes registers of the alternative bank (R24). -/

namespace Sys2Proof.Machine

open Sys2Proof

/-- MOV (R140): a register of either bank to a register of either bank, bytes and halves swapped as B and W say. -/
def execMov (rd : Reg) (optB optW : Bool) (bd bs : BankSel) (rs : Reg) (s : State) : Outcome :=
  s.writeSel bd rd (movValue optB optW (s.readSel bs rs))

/-- LDI (R25, R141): the sign-extended 12-bit immediate to R13 of the current bank. -/
def execLdi (imm : BitVec 12) (s : State) : Outcome :=
  s.writeSel .current Reg.ir (signedImm imm)

end Sys2Proof.Machine
end

