-- ==== Sys2Proof/Machine/Reserved.lean ====
section
/-! DEFINITION. The rows of the opcode table to which the source gives no effect: the reserved and unallocated words
fault `ReservedEncoding(w)` (R85 to R88, R102, R134, R153, R154, D17, D19), the undocumented opcodes are refused
`UndocumentedOpcode(w)` (R89, R172, D20). Each records the word. No state is read. -/

namespace Sys2Proof.Machine

open Sys2Proof

/-- B with cond 1111 (R102): reserved; it must not be modelled as "never taken". -/
def execBnv (off : BitVec 9) (_ : State) : Outcome :=
  .fault (.reservedEncoding (encode (.bnv off)))

/-- 0111 with bit 6 = 1 (R134). -/
def execReserved0111 (w : Half) (_ : State) : Outcome :=
  .fault (.reservedEncoding (encode (.reserved0111 w)))

/-- LSH(1) with A = R = 1 (R153). -/
def execLsh1Reserved (rd : Reg) (d : Bool) (imm : BitVec 5) (_ : State) : Outcome :=
  .fault (.reservedEncoding (encode (.lsh1Reserved rd d imm)))

/-- LSH(2) with A = R = 1 (R153). -/
def execLsh2Reserved (rd : Reg) (d : Bool) (rs : Reg) (_ : State) : Outcome :=
  .fault (.reservedEncoding (encode (.lsh2Reserved rd d rs)))

/-- Opcode 101 with bits 5:4 = 11 (R154). -/
def execReserved101 (w : Half) (_ : State) : Outcome :=
  .fault (.reservedEncoding (encode (.reserved101 w)))

/-- Opcodes 110 and 111, BIT and MEM (R172): probably good instructions, with no meaning in any source. -/
def execUndocumented (w : Half) (_ : State) : Outcome :=
  .refused (.undocumentedOpcode (encode (.undocumented w)))

end Sys2Proof.Machine
end

