-- ==== Sys2Proof/Machine/Shift.lean ====
section
/-! DEFINITION. LSH(1) and LSH(2) (R150 to R152): the six shifts by an immediate and by a register of the current bank;
no flag is written. -/

namespace Sys2Proof.Machine

open Sys2Proof

/-- LSH(1) (R151): `Rd <- Shift(op, Rd, immed)`. -/
def shiftImm (op : ShiftOp) (rd : Reg) (imm : BitVec 5) (s : State) : Outcome :=
  s.writeSel .current rd (shift op (s.readCur rd) imm.toNat)

/-- LSH(2) (R152): the amount is the whole 32-bit Rs; above 31 it is UNDEFINED and the model faults (D18, log 13). -/
def shiftReg (op : ShiftOp) (rd rs : Reg) (s : State) : Outcome :=
  if 31 < (s.readCur rs).toNat then .fault (.shiftAmountUndefined (s.readCur rs))
  else s.writeSel .current rd (shift op (s.readCur rd) (s.readCur rs).toNat)

/-- LSL Rd, immed (R151). -/
def execLslImm (rd : Reg) (imm : BitVec 5) (s : State) : Outcome := shiftImm .lsl rd imm s

/-- LSR Rd, immed. -/
def execLsrImm (rd : Reg) (imm : BitVec 5) (s : State) : Outcome := shiftImm .lsr rd imm s

/-- ASL Rd, immed. -/
def execAslImm (rd : Reg) (imm : BitVec 5) (s : State) : Outcome := shiftImm .asl rd imm s

/-- ASR Rd, immed. -/
def execAsrImm (rd : Reg) (imm : BitVec 5) (s : State) : Outcome := shiftImm .asr rd imm s

/-- ROL Rd, immed. -/
def execRolImm (rd : Reg) (imm : BitVec 5) (s : State) : Outcome := shiftImm .rol rd imm s

/-- ROR Rd, immed. -/
def execRorImm (rd : Reg) (imm : BitVec 5) (s : State) : Outcome := shiftImm .ror rd imm s

/-- LSL Rd, Rs (R152). -/
def execLslReg (rd rs : Reg) (s : State) : Outcome := shiftReg .lsl rd rs s

/-- LSR Rd, Rs. -/
def execLsrReg (rd rs : Reg) (s : State) : Outcome := shiftReg .lsr rd rs s

/-- ASL Rd, Rs. -/
def execAslReg (rd rs : Reg) (s : State) : Outcome := shiftReg .asl rd rs s

/-- ASR Rd, Rs. -/
def execAsrReg (rd rs : Reg) (s : State) : Outcome := shiftReg .asr rd rs s

/-- ROL Rd, Rs. -/
def execRolReg (rd rs : Reg) (s : State) : Outcome := shiftReg .rol rd rs s

/-- ROR Rd, Rs. -/
def execRorReg (rd rs : Reg) (s : State) : Outcome := shiftReg .ror rd rs s

end Sys2Proof.Machine
end

