-- ==== Sys2Proof/Machine/Dispatch.lean ====
section
/-! DEFINITION. The meaning of each instruction, one arm per constructor of `Instr`. -/

namespace Sys2Proof.Machine

def exec (i : Instr) (s : State) : Host.Outcome State Fault Refusal :=
  match i with
  | .beq off => Sys2Proof.Machine.execBeq off s
  | .bne off => Sys2Proof.Machine.execBne off s
  | .bcs off => Sys2Proof.Machine.execBcs off s
  | .bcc off => Sys2Proof.Machine.execBcc off s
  | .bmi off => Sys2Proof.Machine.execBmi off s
  | .bpl off => Sys2Proof.Machine.execBpl off s
  | .bvs off => Sys2Proof.Machine.execBvs off s
  | .bvc off => Sys2Proof.Machine.execBvc off s
  | .bhi off => Sys2Proof.Machine.execBhi off s
  | .bls off => Sys2Proof.Machine.execBls off s
  | .bge off => Sys2Proof.Machine.execBge off s
  | .blt off => Sys2Proof.Machine.execBlt off s
  | .bgt off => Sys2Proof.Machine.execBgt off s
  | .ble off => Sys2Proof.Machine.execBle off s
  | .bal off => Sys2Proof.Machine.execBal off s
  | .bnv off => Sys2Proof.Machine.execBnv off s
  | .add1 rd imm rs => Sys2Proof.Machine.execAdd1 rd imm rs s
  | .add2 rd imm => Sys2Proof.Machine.execAdd2 rd imm s
  | .sub1 rd imm rs => Sys2Proof.Machine.execSub1 rd imm rs s
  | .sub2 rd imm => Sys2Proof.Machine.execSub2 rd imm s
  | .cmp1 rs imm => Sys2Proof.Machine.execCmp1 rs imm s
  | .cmp2 rn bn bx rx => Sys2Proof.Machine.execCmp2 rn bn bx rx s
  | .tst rn bn imm => Sys2Proof.Machine.execTst rn bn imm s
  | .reserved0111 w => Sys2Proof.Machine.execReserved0111 w s
  | .mov rd optB optW bd bs rs => Sys2Proof.Machine.execMov rd optB optW bd bs rs s
  | .ldi imm => Sys2Proof.Machine.execLdi imm s
  | .lslImm rd imm => Sys2Proof.Machine.execLslImm rd imm s
  | .lsrImm rd imm => Sys2Proof.Machine.execLsrImm rd imm s
  | .aslImm rd imm => Sys2Proof.Machine.execAslImm rd imm s
  | .asrImm rd imm => Sys2Proof.Machine.execAsrImm rd imm s
  | .rolImm rd imm => Sys2Proof.Machine.execRolImm rd imm s
  | .rorImm rd imm => Sys2Proof.Machine.execRorImm rd imm s
  | .lsh1Reserved rd d imm => Sys2Proof.Machine.execLsh1Reserved rd d imm s
  | .lslReg rd rs => Sys2Proof.Machine.execLslReg rd rs s
  | .lsrReg rd rs => Sys2Proof.Machine.execLsrReg rd rs s
  | .aslReg rd rs => Sys2Proof.Machine.execAslReg rd rs s
  | .asrReg rd rs => Sys2Proof.Machine.execAsrReg rd rs s
  | .rolReg rd rs => Sys2Proof.Machine.execRolReg rd rs s
  | .rorReg rd rs => Sys2Proof.Machine.execRorReg rd rs s
  | .lsh2Reserved rd d rs => Sys2Proof.Machine.execLsh2Reserved rd d rs s
  | .reserved101 w => Sys2Proof.Machine.execReserved101 w s
  | .undocumented w => Sys2Proof.Machine.execUndocumented w s

end Sys2Proof.Machine
end

