-- ==== Sys2Proof/Machine/Step.lean ====
section
/-! DEFINITION. One step (R32, R185): an offered interrupt-entry event is taken before the next fetch; otherwise the word
at the pc is fetched, decoded and executed, and the event stream moves one instruction on. -/

namespace Sys2Proof.Machine

open Sys2Proof

/-- The event stream after an instruction: it moves on only when the instruction completed. -/
def afterInstr : Outcome → Outcome
  | .next t => .next t.tickIrq
  | .fault f => .fault f
  | .refused r => .refused r

/-- One step of the machine (R32, R184, R185). -/
def step (s : State) : Host.Outcome State Fault Refusal :=
  if s.irqDue then .next s.enterInterrupt
  else
    match s.fetch with
    | .error f => .fault f
    | .ok w => afterInstr (exec (decodeWord w) s)

/-- `s` with the instruction whose low `nbits` bits are `w` stored where the next step fetches it: at the pc, in the
state's byte order; events already offered are dropped, so that the next step fetches (log 7). -/
def State.withFetchWord (s : State) (nbits w : Nat) : State :=
  { s with
    mem := memWrite s.params.byteOrder s.mem s.pc 2 (tableWord nbits w).toNat
    irq := if s.irqDue then s.irq.dropWhile (· == 0) else s.irq }

end Sys2Proof.Machine
end

