-- ==== Sys2Proof/Safety.lean ====
section
/-! DEFINITION. The terms in which claims about the machine are stated: the invariant of every run, what a step leaves
alone, what an instruction's result does to the machine, and which registers an instruction names. -/

namespace Sys2Proof.Machine

open Sys2Proof

/-- Bit 0 of a value is 0: a legal program counter (R31, R34). -/
abbrev EvenWord (v : Word) : Prop := v.getLsbD 0 = false

/-- What holds at reset and after every step: both program counters are even (R34), bit 0 of both status registers holds
nothing (R28), and memory is in its canonical form. -/
structure State.Inv (s : State) : Prop where
  pcEven : ∀ m : Mode, EvenWord (s.reg m Reg.pc)
  srBit0 : ∀ m : Mode, EvenWord (s.reg m Reg.sr)
  memWf : Memory.wf s.mem = true

/-- A launch the spec admits: RESET_PC and every launch value of both R15s are even (R34, R200), and the image is in
canonical form. -/
structure LaunchOk (l : Launch) : Prop where
  resetPcEven : EvenWord l.resetPc
  draw0PcEven : EvenWord l.draw0[15]
  draw1PcEven : EvenWord l.draw1[15]
  imageWf : Memory.wf l.image = true

/-- From `s` to `t`, every register outside `changed`, the mode, the parameters, the event stream and every byte of
memory are as before. -/
structure SameOutside (changed : Mode → Reg → Prop) (s t : State) : Prop where
  reg : ∀ (m : Mode) (r : Reg), ¬ changed m r → t.reg m r = s.reg m r
  mode : t.mode = s.mode
  params : t.params = s.params
  irq : t.irq = s.irq
  mem : ∀ a : Nat, Memory.read t.mem a = Memory.read s.mem a

/-- `t` is `s` with `v` stored in register `r` of bank `m` and the pc advanced by 2, and nothing else changed. -/
def StoresOnly (s t : State) (m : Mode) (r : Reg) (v : Word) : Prop :=
  t.reg m r = v ∧ t.reg s.mode Reg.pc = s.pc + 2 ∧
    SameOutside (fun m' r' => (m' = m ∧ r' = r) ∨ (m' = s.mode ∧ r' = Reg.pc)) s t

/-- `t` is `s` with the current bank's pc at `a`, and nothing else changed. -/
def GoesTo (s t : State) (a : Word) : Prop :=
  t.reg s.mode Reg.pc = a ∧ SameOutside (fun m' r' => m' = s.mode ∧ r' = Reg.pc) s t

/-- `t` is `s` with the flags `f` in the current bank's sr, bits 27:0 of that sr kept, the pc advanced by 2, and nothing
else changed. -/
def FlagsOnly (s t : State) (f : Flags) : Prop :=
  t.flags = f ∧
    (t.reg s.mode Reg.sr).extractLsb' 0 28 = (s.reg s.mode Reg.sr).extractLsb' 0 28 ∧
    t.reg s.mode Reg.pc = s.pc + 2 ∧
    SameOutside (fun m' r' => m' = s.mode ∧ (r' = Reg.sr ∨ r' = Reg.pc)) s t

/-- The answer `o` writes the result `v` to register `rd` selected by `b`, in every form R11 gives a register write. For
R15 of either bank and an odd `v` it faults; for the current R15 it completes with a control transfer; for the
alternative R15 it completes with `v` stored and the pc advanced; for any other register it completes with `v` stored
(bit 0 dropped for R14) and the pc advanced. -/
def WritesResult (s : State) (b : BankSel) (rd : Reg) (v : Word) (o : Outcome) : Prop :=
  if rd = Reg.pc then
    if EvenWord v then
      match b with
      | .current => ∃ t, o = .next t ∧ GoesTo s t (v + biasOf s.params.pcWriteBias)
      | .alternative => ∃ t, o = .next t ∧ StoresOnly s t s.mode.other Reg.pc v
    else o = .fault (.undefinedPcBit0 v)
  else ∃ t, o = .next t ∧ StoresOnly s t (s.selMode b) rd (if rd = Reg.sr then withBit0 v false else v)

/-- The answer `o` is B's at `s` (R101): it completes, at the branch's own address plus the offset when `taken`, at the
next instruction otherwise, and changes nothing else. -/
def Branches (s : State) (off : BitVec 9) (taken : Prop) (o : Outcome) : Prop :=
  ∃ t, o = .next t ∧
    ((taken ∧ GoesTo s t (s.pc + branchOffset off + biasOf s.params.pcWriteBias)) ∨
      (¬ taken ∧ GoesTo s t (s.pc + 2)))

/-- The same answer with `f` applied to the next state. -/
def mapNext (f : State → State) : Outcome → Outcome
  | .next t => .next (f t)
  | .fault r => .fault r
  | .refused r => .refused r

/-- `s` with the whole bank `m` replaced. -/
def State.withBank (s : State) (m : Mode) (b : Vector Word 16) : State :=
  match m with
  | .normal => { s with bank0 := b }
  | .interrupt => { s with bank1 := b }

/-- The destination register an instruction names, with its bank (R24, R25, R29, R33): none for B, the comparisons and
the rows without a meaning. -/
def dest : Instr → Option (BankSel × Reg)
  | .add1 rd _ _ | .add2 rd _ | .sub1 rd _ _ | .sub2 rd _ => some (.current, rd)
  | .mov rd _ _ bd _ _ => some (bd, rd)
  | .ldi _ => some (.current, Reg.ir)
  | .lslImm rd _ | .lsrImm rd _ | .aslImm rd _ | .asrImm rd _ | .rolImm rd _ | .rorImm rd _ => some (.current, rd)
  | .lslReg rd _ | .lsrReg rd _ | .aslReg rd _ | .asrReg rd _ | .rolReg rd _ | .rorReg rd _ => some (.current, rd)
  | .beq _ | .bne _ | .bcs _ | .bcc _ | .bmi _ | .bpl _ | .bvs _ | .bvc _ => none
  | .bhi _ | .bls _ | .bge _ | .blt _ | .bgt _ | .ble _ | .bal _ | .bnv _ => none
  | .cmp1 _ _ | .cmp2 _ _ _ _ | .tst _ _ _ => none
  | .reserved0111 _ | .lsh1Reserved _ _ _ | .lsh2Reserved _ _ _ | .reserved101 _ | .undocumented _ => none

/-- The instructions that write flags as their effect: CMP(1), CMP(2), TST (R29). -/
def setsFlags : Instr → Bool
  | .cmp1 _ _ | .cmp2 _ _ _ _ | .tst _ _ _ => true
  | .add1 _ _ _ | .add2 _ _ | .sub1 _ _ _ | .sub2 _ _ | .mov _ _ _ _ _ _ | .ldi _ => false
  | .lslImm _ _ | .lsrImm _ _ | .aslImm _ _ | .asrImm _ _ | .rolImm _ _ | .rorImm _ _ => false
  | .lslReg _ _ | .lsrReg _ _ | .aslReg _ _ | .asrReg _ _ | .rolReg _ _ | .rorReg _ _ => false
  | .beq _ | .bne _ | .bcs _ | .bcc _ | .bmi _ | .bpl _ | .bvs _ | .bvc _ => false
  | .bhi _ | .bls _ | .bge _ | .blt _ | .bgt _ | .ble _ | .bal _ | .bnv _ => false
  | .reserved0111 _ | .lsh1Reserved _ _ _ | .lsh2Reserved _ _ _ | .reserved101 _ | .undocumented _ => false

/-- B with a condition of R100. -/
def isBranch : Instr → Bool
  | .beq _ | .bne _ | .bcs _ | .bcc _ | .bmi _ | .bpl _ | .bvs _ | .bvc _ => true
  | .bhi _ | .bls _ | .bge _ | .blt _ | .bgt _ | .ble _ | .bal _ => true
  | .bnv _ => false
  | .add1 _ _ _ | .add2 _ _ | .sub1 _ _ _ | .sub2 _ _ | .mov _ _ _ _ _ _ | .ldi _ => false
  | .cmp1 _ _ | .cmp2 _ _ _ _ | .tst _ _ _ => false
  | .lslImm _ _ | .lsrImm _ _ | .aslImm _ _ | .asrImm _ _ | .rolImm _ _ | .rorImm _ _ => false
  | .lslReg _ _ | .lsrReg _ _ | .aslReg _ _ | .asrReg _ _ | .rolReg _ _ | .rorReg _ _ => false
  | .reserved0111 _ | .lsh1Reserved _ _ _ | .lsh2Reserved _ _ _ | .reserved101 _ | .undocumented _ => false

/-- The instruction has a selector bit set: it names a register of the alternative bank (R24). -/
def namesAlternative : Instr → Bool
  | .cmp2 _ bn bx _ => bn == .alternative || bx == .alternative
  | .tst _ bn _ => bn == .alternative
  | .mov _ _ _ bd bs _ => bd == .alternative || bs == .alternative
  | .add1 _ _ _ | .add2 _ _ | .sub1 _ _ _ | .sub2 _ _ | .cmp1 _ _ | .ldi _ => false
  | .lslImm _ _ | .lsrImm _ _ | .aslImm _ _ | .asrImm _ _ | .rolImm _ _ | .rorImm _ _ => false
  | .lslReg _ _ | .lsrReg _ _ | .aslReg _ _ | .asrReg _ _ | .rolReg _ _ | .rorReg _ _ => false
  | .beq _ | .bne _ | .bcs _ | .bcc _ | .bmi _ | .bpl _ | .bvs _ | .bvc _ => false
  | .bhi _ | .bls _ | .bge _ | .blt _ | .bgt _ | .ble _ | .bal _ | .bnv _ => false
  | .reserved0111 _ | .lsh1Reserved _ _ _ | .lsh2Reserved _ _ _ | .reserved101 _ | .undocumented _ => false

/-- An LSH(2) instruction's amount register (R152). -/
def amountReg : Instr → Option Reg
  | .lslReg _ rs | .lsrReg _ rs | .aslReg _ rs | .asrReg _ rs | .rolReg _ rs | .rorReg _ rs => some rs
  | .add1 _ _ _ | .add2 _ _ | .sub1 _ _ _ | .sub2 _ _ | .mov _ _ _ _ _ _ | .ldi _ => none
  | .cmp1 _ _ | .cmp2 _ _ _ _ | .tst _ _ _ => none
  | .lslImm _ _ | .lsrImm _ _ | .aslImm _ _ | .asrImm _ _ | .rolImm _ _ | .rorImm _ _ => none
  | .beq _ | .bne _ | .bcs _ | .bcc _ | .bmi _ | .bpl _ | .bvs _ | .bvc _ => none
  | .bhi _ | .bls _ | .bge _ | .blt _ | .bgt _ | .ble _ | .bal _ | .bnv _ => none
  | .reserved0111 _ | .lsh1Reserved _ _ _ | .lsh2Reserved _ _ _ | .reserved101 _ | .undocumented _ => none

/-- Byte `k` of a value, byte 0 the lowest (R140). -/
def byteOf (x : Word) (k : Nat) : Byte := x.extractLsb' (8 * k) 8

/-- The bytes b3 b2 b1 b0 of a value in the order MOV leaves them (R140): plain, MOVB, MOVW, MOVBW. -/
def reorderBytes (optB optW : Bool) (x : Word) : Word :=
  match optB, optW with
  | false, false => byteOf x 3 ++ byteOf x 2 ++ byteOf x 1 ++ byteOf x 0
  | true, false => byteOf x 2 ++ byteOf x 3 ++ byteOf x 0 ++ byteOf x 1
  | false, true => byteOf x 1 ++ byteOf x 0 ++ byteOf x 3 ++ byteOf x 2
  | true, true => byteOf x 0 ++ byteOf x 1 ++ byteOf x 2 ++ byteOf x 3

/-- The exact integer difference of two signed values lies outside 32 bits (R12). -/
abbrev SignedSubOverflows (a b : Word) : Prop :=
  a.toInt - b.toInt < -2 ^ 31 ∨ 2 ^ 31 ≤ a.toInt - b.toInt

/-- The flags after `CMP a, b` in terms of the numbers compared (R130, R131, R12): N and Z of the difference, C when the
second operand is at least the first, V when the exact signed difference does not fit. -/
def compareFlagsSpec (k : CmpCompare) (a b : Word) : Flags :=
  { n := (a - b).getLsbD 31
    z := decide (a = b)
    c :=
      match k with
      | .unsigned => decide (a.toNat ≤ b.toNat)
      | .signed => decide (a.toInt ≤ b.toInt)
    v := decide (SignedSubOverflows a b) }

/-- What each condition of B means for the operands of the `CMP a, b` that last set the flags `f`, C unsigned: the last
column of the table of R100. -/
def ConditionMeanings (a b : Word) (f : Flags) : Prop :=
  (condHolds .eq f = true ↔ a = b) ∧
  (condHolds .ne f = true ↔ a ≠ b) ∧
  (condHolds .cs f = true ↔ a.toNat ≤ b.toNat) ∧
  (condHolds .cc f = true ↔ b.toNat < a.toNat) ∧
  (condHolds .mi f = true ↔ (a - b).getLsbD 31 = true) ∧
  (condHolds .pl f = true ↔ (a - b).getLsbD 31 = false) ∧
  (condHolds .vs f = true ↔ SignedSubOverflows a b) ∧
  (condHolds .vc f = true ↔ ¬ SignedSubOverflows a b) ∧
  (condHolds .hi f = true ↔ a.toNat < b.toNat) ∧
  (condHolds .ls f = true ↔ b.toNat ≤ a.toNat) ∧
  (condHolds .ge f = true ↔ b.toInt ≤ a.toInt) ∧
  (condHolds .lt f = true ↔ a.toInt < b.toInt) ∧
  (condHolds .gt f = true ↔ b.toInt < a.toInt) ∧
  (condHolds .le f = true ↔ a.toInt ≤ b.toInt) ∧
  condHolds .al f = true

/-- A word of one of the reserved or unallocated rows (R85 to R88). -/
def reservedWord (w : Half) : Bool :=
  w &&& 0xFE00#16 == 0x1E00#16 || w &&& 0xF040#16 == 0x7040#16 || w &&& 0xF060#16 == 0xB040#16 ||
    w &&& 0xF070#16 == 0xB060#16 || w &&& 0xE030#16 == 0xA030#16

end Sys2Proof.Machine
end

