-- ==== Sys2Proof/Certificates/Slice0/Obligations.lean ====
section
/-! DEFINITION. The statements for the provers. Each docstring names the rule of spec/ it comes from, the spec's own
decision (D<n>) it rests on where the rule marks one, and the model's log entry. -/

open Sys2Proof Sys2Proof.Machine

/-! ### Encoding -/

/-- Words of `95_test_vectors.md` section L2, one per family and across its boundaries (R83 to R89): 0x03FE, 0x33C8 and
0x4132 stand in its B, ADD and SUB tables, the other seventeen in its decode vectors. -/
def Obligations.DecodeVectorsReadAsListed : Prop :=
  decodeWord 0x0000 = .beq 0 ∧ decodeWord 0x03FE = .bne 0x1FE ∧ decodeWord 0x1DFF = .bal 0x1FF ∧
  decodeWord 0x1E00 = .bnv 0 ∧ decodeWord 0x2FFF = .add1 15 15 15 ∧ decodeWord 0x33C8 = .add2 3 200 ∧
  decodeWord 0x4132 = .sub1 1 3 2 ∧ decodeWord 0x5FFF = .sub2 15 255 ∧ decodeWord 0x6FFF = .cmp1 15 255 ∧
  decodeWord 0x703F = .cmp2 0 .alternative .alternative 15 ∧ decodeWord 0x707F = .reserved0111 0x707F ∧
  decodeWord 0x70BF = .tst 0 .alternative 31 ∧
  decodeWord 0x8FFF = .mov 15 true true .alternative .alternative 15 ∧ decodeWord 0x9FFF = .ldi 0xFFF ∧
  decodeWord 0xA0C0 = .rorImm 0 0 ∧ decodeWord 0xA0E0 = .rorReg 0 0 ∧ decodeWord 0xB0C0 = .lsh1Reserved 0 true 0 ∧
  decodeWord 0xBFEF = .lsh2Reserved 15 true 15 ∧ decodeWord 0xBFFF = .reserved101 0xBFFF ∧
  decodeWord 0xC000 = .undocumented 0xC000

/-- Format B (R73): bits 15:13 are 000, bits 12:9 are cond, bits 8:0 are the offset field. Each of the sixteen cond
values names the row that R94 and R100 give it, 1111 the reserved one (R85). The field is two's complement (D23, log
22) and counts halfwords (R82, R101), the spec's own resolution of C2 and C3 (log 29). -/
def Obligations.BranchFormat : Prop :=
  ∀ off : BitVec 9,
    decodeWord (0b000#3 ++ 0b0000#4 ++ off) = .beq off ∧ decodeWord (0b000#3 ++ 0b0001#4 ++ off) = .bne off ∧
    decodeWord (0b000#3 ++ 0b0010#4 ++ off) = .bcs off ∧ decodeWord (0b000#3 ++ 0b0011#4 ++ off) = .bcc off ∧
    decodeWord (0b000#3 ++ 0b0100#4 ++ off) = .bmi off ∧ decodeWord (0b000#3 ++ 0b0101#4 ++ off) = .bpl off ∧
    decodeWord (0b000#3 ++ 0b0110#4 ++ off) = .bvs off ∧ decodeWord (0b000#3 ++ 0b0111#4 ++ off) = .bvc off ∧
    decodeWord (0b000#3 ++ 0b1000#4 ++ off) = .bhi off ∧ decodeWord (0b000#3 ++ 0b1001#4 ++ off) = .bls off ∧
    decodeWord (0b000#3 ++ 0b1010#4 ++ off) = .bge off ∧ decodeWord (0b000#3 ++ 0b1011#4 ++ off) = .blt off ∧
    decodeWord (0b000#3 ++ 0b1100#4 ++ off) = .bgt off ∧ decodeWord (0b000#3 ++ 0b1101#4 ++ off) = .ble off ∧
    decodeWord (0b000#3 ++ 0b1110#4 ++ off) = .bal off ∧ decodeWord (0b000#3 ++ 0b1111#4 ++ off) = .bnv off ∧
    (branchOffset off).toInt = 2 * off.toInt

/-- R74, R75, formats RRI4 and RI8: where ADD(1), SUB(1), ADD(2), SUB(2) and CMP(1) hold their fields. -/
def Obligations.ArithmeticFormats : Prop :=
  ∀ (ra rb : Reg) (imm4 : BitVec 4) (imm8 : BitVec 8),
    decodeWord (0b001#3 ++ 0b0#1 ++ BitVec.ofFin (w := 4) ra ++ imm4 ++ BitVec.ofFin (w := 4) rb) = .add1 ra imm4 rb ∧
    decodeWord (0b010#3 ++ 0b0#1 ++ BitVec.ofFin (w := 4) ra ++ imm4 ++ BitVec.ofFin (w := 4) rb) = .sub1 ra imm4 rb ∧
    decodeWord (0b0011#4 ++ BitVec.ofFin (w := 4) ra ++ imm8) = .add2 ra imm8 ∧
    decodeWord (0b0101#4 ++ BitVec.ofFin (w := 4) ra ++ imm8) = .sub2 ra imm8 ∧
    decodeWord (0b0110#4 ++ BitVec.ofFin (w := 4) ra ++ imm8) = .cmp1 ra imm8

/-- Formats CMP2, TST, MOV and LDI (R76 to R79): where they hold their fields, a selector bit of 1 naming the
alternative bank (R24); TST's immediate is unsigned (the bit number of its mask) and LDI's is two's complement,
sign-extended (D23, log 22). -/
def Obligations.CompareAndMoveFormats : Prop :=
  ∀ (ra rb : Reg) (x y : Bool) (optB optW : Bool) (imm5 : BitVec 5) (imm12 : BitVec 12),
    let sel : Bool → BankSel := fun b => if b then .alternative else .current
    decodeWord (0b0111#4 ++ BitVec.ofFin (w := 4) ra ++ 0b0#1 ++ 0b0#1 ++ BitVec.ofBool x ++ BitVec.ofBool y ++
      BitVec.ofFin (w := 4) rb) = .cmp2 ra (sel x) (sel y) rb ∧
    decodeWord (0b0111#4 ++ BitVec.ofFin (w := 4) ra ++ 0b1#1 ++ 0b0#1 ++ BitVec.ofBool x ++ imm5) =
      .tst ra (sel x) imm5 ∧
    decodeWord (0b1000#4 ++ BitVec.ofFin (w := 4) ra ++ BitVec.ofBool optB ++ BitVec.ofBool optW ++ BitVec.ofBool x ++
      BitVec.ofBool y ++ BitVec.ofFin (w := 4) rb) = .mov ra optB optW (sel x) (sel y) rb ∧
    decodeWord (0b1001#4 ++ imm12) = .ldi imm12 ∧
    (∀ (s : State) (r : Reg), s.readSel (sel true) r = s.readAlt r ∧ s.readSel (sel false) r = s.readCur r) ∧
    (bitMask imm5).toNat = 2 ^ imm5.toNat ∧ (signedImm imm12).toInt = imm12.toInt

/-- R80, R81 with the option bits of R96: where LSH(1) and LSH(2) hold A, Rd, D, R and the amount, which mnemonic each
combination of A, D, R is, that A = R = 1 is the reserved row (R87), and that bits 5:4 = 11 are unallocated (R88). The
mnemonics' option bits are an inference the spec marks (R96); D17, D19; log 14. -/
def Obligations.ShiftFormats : Prop :=
  ∀ (rd rs : Reg) (d : Bool) (imm : BitVec 5),
    let lsh1 : Bool → Bool → Bool → Instr := fun a d r =>
      decodeWord (0b101#3 ++ BitVec.ofBool a ++ BitVec.ofFin (w := 4) rd ++ BitVec.ofBool d ++ BitVec.ofBool r ++ 0b0#1 ++
        imm)
    let lsh2 : Bool → Bool → Bool → Instr := fun a d r =>
      decodeWord (0b101#3 ++ BitVec.ofBool a ++ BitVec.ofFin (w := 4) rd ++ BitVec.ofBool d ++ BitVec.ofBool r ++ 0b1#1 ++
        0b0#1 ++ BitVec.ofFin (w := 4) rs)
    lsh1 false false false = .lslImm rd imm ∧ lsh1 false true false = .lsrImm rd imm ∧
    lsh1 true false false = .aslImm rd imm ∧ lsh1 true true false = .asrImm rd imm ∧
    lsh1 false false true = .rolImm rd imm ∧ lsh1 false true true = .rorImm rd imm ∧
    lsh1 true d true = .lsh1Reserved rd d imm ∧
    lsh2 false false false = .lslReg rd rs ∧ lsh2 false true false = .lsrReg rd rs ∧
    lsh2 true false false = .aslReg rd rs ∧ lsh2 true true false = .asrReg rd rs ∧
    lsh2 false false true = .rolReg rd rs ∧ lsh2 false true true = .rorReg rd rs ∧
    lsh2 true d true = .lsh2Reserved rd d rs ∧
    (∀ w : Half, w.extractLsb' 13 3 = 0b101#3 → w.extractLsb' 4 2 = 0b11#2 → decodeWord w = .reserved101 w)

/-- R76, R78, the words themselves: each box of formats CMP2 and MOV stands at its bits, for every operand, a selector bit
is 1 exactly when its operand is of the alternative bank, and a source so selected is read from that bank. -/
def Obligations.SelectorFormEncodings : Prop :=
  (∀ (rn rx : Reg) (bn bx : BankSel),
    let w := encode (.cmp2 rn bn bx rx)
    w.extractLsb' 12 4 = 0b0111#4 ∧ (w.extractLsb' 8 4).toFin = rn ∧ w.getLsbD 7 = false ∧ w.getLsbD 6 = false ∧
    (w.getLsbD 5 = true ↔ bn = .alternative) ∧ (w.getLsbD 4 = true ↔ bx = .alternative) ∧
    (w.extractLsb' 0 4).toFin = rx) ∧
  (∀ (rd rs : Reg) (optB optW : Bool) (bd bs : BankSel),
    let w := encode (.mov rd optB optW bd bs rs)
    w.extractLsb' 12 4 = 0b1000#4 ∧ (w.extractLsb' 8 4).toFin = rd ∧ w.getLsbD 7 = optB ∧ w.getLsbD 6 = optW ∧
    (w.getLsbD 5 = true ↔ bd = .alternative) ∧ (w.getLsbD 4 = true ↔ bs = .alternative) ∧
    (w.extractLsb' 0 4).toFin = rs) ∧
  (∀ (s : State) (r : Reg), s.readSel .alternative r = s.readAlt r ∧ s.readSel .current r = s.readCur r)

/-- R81, the words themselves: each box of format LSH2 stands at its bits, for every option bit and register; every LSH(2)
instruction's word is of that format, with its own Rd and Rs; and bit 5 tells it from format LSH1. -/
def Obligations.RegisterShiftEncodings : Prop :=
  (∀ (a d r : Bool) (rd rs : Reg),
    let w := encodeLsh2 a d r rd rs
    w.extractLsb' 13 3 = 0b101#3 ∧ w.getLsbD 12 = a ∧ (w.extractLsb' 8 4).toFin = rd ∧ w.getLsbD 7 = d ∧
    w.getLsbD 6 = r ∧ w.getLsbD 5 = true ∧ w.getLsbD 4 = false ∧ (w.extractLsb' 0 4).toFin = rs) ∧
  (∀ (i : Instr) (b : BankSel) (rd rs : Reg), dest i = some (b, rd) → amountReg i = some rs →
    ∃ a d r, encode i = encodeLsh2 a d r rd rs) ∧
  (∀ (a d r : Bool) (rd : Reg) (imm : BitVec 5), (encodeLsh1 a d r rd imm).getLsbD 5 = false)

/-- The opcode map accounts for all 65536 words (R83): the instruction a word decodes to is well-formed, and its word is
that word, so no word is lost and no bit of it is dropped. -/
def Obligations.EveryWordIsOneInstruction : Prop :=
  ∀ w : Half, (decodeWord w).WellFormed = true ∧ encode (decodeWord w) = w

/-- Decode and encode agree (R73 to R81, R83, R84): every well-formed instruction, every operand at every value its
encoding admits, decodes from its own word. -/
def Obligations.DecodeInvertsEncode : Prop :=
  ∀ i : Instr, i.WellFormed = true → decodeWord (encode i) = i

/-- Every instruction is two bytes long and is read from them in either byte order (R52, R70, R91; D1, log 5); fewer
than two bytes are no instruction. -/
def Obligations.TwoBytesDecodeInEitherOrder : Prop :=
  (∀ (o : ByteOrder) (i : Instr) (rest : List Byte), i.WellFormed = true →
    decode o (bytesOfWord o (encode i) ++ rest) = .ok (i, rest)) ∧
  (∀ (o : ByteOrder) (bs : List Byte), bs.length < 2 → decode o bs = .error .truncated)

/-! ### Fetch, memory and the step -/

/-- A step runs the decoded instruction (R32; D1, D7, D21, logs 5, 8 and 23): when no interrupt entry is due, the pc is
even and the two bytes at the pc decode to `i`, the step is `exec i`, and what it adds is the event stream's tick: the
next event, if it is not offered yet, is one instruction nearer (log 8). -/
def Obligations.StepRunsTheDecodedInstruction : Prop :=
  (∀ (s : State) (bs : List Byte) (i : Instr), s.irqDue = false → EvenWord s.pc →
    Memory.readBytes s.mem s.pc 2 = some bs → decode s.params.byteOrder bs = .ok (i, []) →
    (∀ t, exec i s = .next t → step s = .next t.tickIrq) ∧
    (∀ f, exec i s = .fault f → step s = .fault f) ∧
    (∀ r, exec i s = .refused r → step s = .refused r)) ∧
  (∀ (t : State) (n : Nat) (es : List Nat), t.irq = (n + 1) :: es → t.tickIrq = { t with irq := n :: es }) ∧
  (∀ (t : State) (es : List Nat), t.irq = [] ∨ t.irq = 0 :: es → t.tickIrq = t)

/-- The fetch (R51, R52, R55): at an even pc it is the two bytes at pc and pc + 1, the byte at the lower address
holding bits 7:0 (little) or 15:8 (big); it faults where one of them is not admitted, and at an odd pc. A step whose
fetch faults is that fault. The parameter and the fault are the spec's own D1, D2, D3, D9; logs 5, 6, 12. -/
def Obligations.FetchReadsTwoBytesInOrder : Prop :=
  ∀ s : State,
    (∀ b0 b1 : Byte, EvenWord s.pc → Memory.read s.mem s.pc.toNat = some b0 →
      Memory.read s.mem (s.pc + 1).toNat = some b1 →
      (s.params.byteOrder = .little → s.fetch = .ok (b1 ++ b0)) ∧
      (s.params.byteOrder = .big → s.fetch = .ok (b0 ++ b1))) ∧
    (EvenWord s.pc → (Memory.read s.mem s.pc.toNat = none ∨ Memory.read s.mem (s.pc + 1).toNat = none) →
      s.fetch = .error (.fetchNotAdmitted s.pc)) ∧
    (¬ EvenWord s.pc → s.fetch = .error (.undefinedPcBit0 s.pc)) ∧
    (∀ f, s.irqDue = false → s.fetch = .error f → step s = .fault f)

/-- MemRead after MemWrite (R62; D1, D2, logs 5 and 6): the n bytes written read back as the value's low 8n bits, in
either byte order and across the top of the address space, and every other address is left alone. -/
def Obligations.MemReadReturnsWhatMemWriteStored : Prop :=
  ∀ (o : ByteOrder) (m : Memory) (a : Word) (n v : Nat), n ≤ 2 ^ 32 →
    memRead o (memWrite o m a n v) a n = some (v % 2 ^ (8 * n)) ∧
    ∀ a' : Nat, (∀ k, k < n → a' ≠ (a + BitVec.ofNat 32 k).toNat) →
      Memory.read (memWrite o m a n v) a' = Memory.read m a'

/-- A word placed for the next step is the one the next step executes (R51; D1, D3, logs 5 to 8): `withFetchWord`
changes no register, no mode and no parameter, and the very next step is `exec` of the placed word's instruction and
the stream's tick. -/
def Obligations.PlacedWordIsExecutedNext : Prop :=
  ∀ (s : State) (w : Half), EvenWord s.pc →
    (∀ m r, (s.withFetchWord 16 w.toNat).reg m r = s.reg m r) ∧
    (s.withFetchWord 16 w.toNat).mode = s.mode ∧ (s.withFetchWord 16 w.toNat).params = s.params ∧
    step (s.withFetchWord 16 w.toNat) = afterInstr (exec (decodeWord w) (s.withFetchWord 16 w.toNat))

/-! ### Interrupt entry and the mode -/

/-- Interrupt entry (R184, R185; D21, logs 8 and 9): in normal mode, an event offered is taken before the next fetch;
the mode becomes interrupt, the event leaves the stream, and nothing else changes: no register is saved or written, so
the pc is what `bank[1][15]` holds, I reads 1, and the interrupted registers are now the alternative ones. That this
holds of R14 too, bit 0 as read included, is the default reading of the alternative sr, ASR_I_READ = bank (D14, log
18). -/
def Obligations.InterruptEntrySwapsBanks : Prop :=
  ∀ (s : State) (es : List Nat), s.mode = .normal → s.irq = 0 :: es →
    ∃ t, step s = .next t ∧ t.mode = .interrupt ∧ t.irq = es ∧ t.params = s.params ∧
      (∀ m r, t.reg m r = s.reg m r) ∧ (∀ a, Memory.read t.mem a = Memory.read s.mem a) ∧
      t.pc = s.reg .interrupt Reg.pc ∧ (t.readCur Reg.sr).getLsbD 0 = true ∧
      (∀ r, r ≠ Reg.sr → t.readCur r = s.readAlt r ∧ t.readAlt r = s.readCur r) ∧
      (s.params.asrIRead = .bank → t.readCur Reg.sr = s.readAlt Reg.sr ∧ t.readAlt Reg.sr = s.readCur Reg.sr)

/-- An event offered in interrupt mode has no move and stays in the stream (R187; D21, D22, logs 8 and 10). -/
def Obligations.InterruptEventWaitsInInterruptMode : Prop :=
  ∀ (s t : State) (es : List Nat), s.mode = .interrupt → s.irq = 0 :: es → step s = .next t →
    t.mode = .interrupt ∧ t.irq = 0 :: es ∧ ∃ w, s.fetch = .ok w ∧ exec (decodeWord w) s = .next t

/-- The mode is changed only by interrupt entry, and nothing leaves interrupt mode (R23, R186; D21, D22, logs 8, 9 and
10): no instruction changes it, a step changes it only by taking an offered event, and a run in interrupt mode stays
there. -/
def Obligations.OnlyInterruptEntryChangesTheMode : Prop :=
  (∀ (i : Instr) (s t : State), exec i s = .next t → t.mode = s.mode) ∧
  (∀ s t : State, step s = .next t → t.mode ≠ s.mode →
    s.mode = .normal ∧ t.mode = .interrupt ∧ s.irq = 0 :: t.irq) ∧
  (∀ (k : Nat) (s t : State), s.mode = .interrupt → Sys2Proof.core.run k s = .next t → t.mode = .interrupt)

/-! ### Reset and the invariants -/

/-- Reset (R200, R41; D3 to D6, D14, D21, logs 1 to 4, 6, 8 and 18): the mode is RESET_MODE, the pc is RESET_PC, memory
is the image, and every other register is what the launch drew for it, bit 0 of R14 apart (R28). The machine's own
reset is the launch with the spec's defaults and, the model's choice where the spec gives no value (logs 2 and 3), zero
in every register. -/
def Obligations.ResetHoldsTheLaunchValues : Prop :=
  (∀ l : Launch,
    (State.boot l).mode = l.resetMode ∧ (State.boot l).pc = l.resetPc ∧ (State.boot l).mem = l.image ∧
    (State.boot l).params = l.params ∧ (State.boot l).irq = l.irqEvents ∧
    (∀ r : Reg, r ≠ Reg.sr → ¬ (l.resetMode = .normal ∧ r = Reg.pc) → (State.boot l).reg .normal r = l.draw0[r]) ∧
    (∀ r : Reg, r ≠ Reg.sr → ¬ (l.resetMode = .interrupt ∧ r = Reg.pc) →
      (State.boot l).reg .interrupt r = l.draw1[r]) ∧
    (State.boot l).reg .normal Reg.sr = withBit0 l.draw0[14] false ∧
    (State.boot l).reg .interrupt Reg.sr = withBit0 l.draw1[14] false) ∧
  State.reset.mode = .normal ∧ State.reset.mem = [] ∧ State.reset.irq = [] ∧ State.reset.params = Params.default ∧
  (∀ m r, State.reset.reg m r = 0)

/-- The invariant holds right after reset, for the machine's own reset and for every launch the spec admits (R34, R41,
R200; D9, D14, logs 6, 12 and 18). -/
def Obligations.ResetMeetsTheInvariant : Prop :=
  State.reset.Inv ∧ ∀ l : Launch, LaunchOk l → (State.boot l).Inv

/-- Every step keeps the invariant, from every state that meets it: both program counters stay even (R34), bit 0 of
both status registers stays out of storage (R28), and memory keeps its canonical form. They rest on D9 (log 12), on D14
(log 18) and on the form memory has here (log 6). -/
def Obligations.StepKeepsTheInvariant : Prop :=
  ∀ s t : State, s.Inv → step s = .next t → t.Inv

/-- No fetch ever sees an odd pc (R34, R51; D9, log 12): from a launch the spec admits, a run of any length never
reaches a state whose fetch faults for an odd pc. -/
def Obligations.NoFetchSeesAnOddPc : Prop :=
  ∀ (l : Launch) (k : Nat) (s : State), LaunchOk l → Sys2Proof.core.run k (State.boot l) = .next s →
    ∀ v, s.fetch ≠ .error (.undefinedPcBit0 v)

/-- Nothing writes memory (R54, R60; D27, log 25) and nothing changes the parameters (R6, log 1): every step, of every
instruction, leaves every byte and every parameter as it was. -/
def Obligations.StepKeepsMemoryAndParameters : Prop :=
  ∀ s t : State, step s = .next t → (∀ a, Memory.read t.mem a = Memory.read s.mem a) ∧ t.params = s.params

/-! ### Rules over all instructions -/

/-- The frame of every instruction (R11, R29, R32; D12, D13, D15, D22, D27, logs 1, 8, 10, 19, 20 and 25): it changes
no register but the current pc, its own destination register, and, for CMP(1), CMP(2) and TST alone, the flags of the
current bank's sr, whose bits 27:0 stay; the mode, the parameters, the event stream and every byte of memory stay. -/
def Obligations.InstructionChangesOnlyWhatItNames : Prop :=
  ∀ (i : Instr) (s t : State), exec i s = .next t →
    SameOutside (fun m r => (m = s.mode ∧ r = Reg.pc) ∨ (∃ b, dest i = some (b, r) ∧ m = s.selMode b) ∨
      (setsFlags i = true ∧ m = s.mode ∧ r = Reg.sr)) s t ∧
    (setsFlags i = true →
      (t.reg s.mode Reg.sr).extractLsb' 0 28 = (s.reg s.mode Reg.sr).extractLsb' 0 28)

/-- The sequential advance (R32, R35; D7, log 23): an instruction that is no branch and whose destination is not the
current R15 leaves the pc two bytes on, modulo 2^32. -/
def Obligations.OtherInstructionsAdvanceThePc : Prop :=
  ∀ (i : Instr) (s t : State), exec i s = .next t → isBranch i = false → dest i ≠ some (.current, Reg.pc) →
    t.pc = s.pc + 2

/-- Isolation of the banks (R24; D15, log 20): an instruction with no selector bit set neither reads nor writes the
alternative bank. Whatever that bank holds, the answer is the same, with that bank as it was. -/
def Obligations.AlternativeBankIsNeitherSeenNorWritten : Prop :=
  ∀ (i : Instr) (s : State) (b : Vector Word 16), namesAlternative i = false →
    exec i (s.withBank s.mode.other b) = mapNext (fun t => t.withBank s.mode.other b) (exec i s)

/-- An instruction stops only where the spec stops it (R180 to R182; D9, D17 to D20, logs 12 to 15): on an odd value for
a destination R15 (or a branch standing at an odd address, which no run reaches), on an LSH(2) amount above 31, on a
reserved word, or, refused, on an undocumented one. -/
def Obligations.StopsOnlyWhereTheSpecStops : Prop :=
  ∀ (i : Instr) (s : State), i.WellFormed = true →
    (∀ f, exec i s = .fault f →
      (∃ v, f = .undefinedPcBit0 v ∧ ¬ EvenWord v ∧
        ((∃ b, dest i = some (b, Reg.pc)) ∨ (isBranch i = true ∧ ¬ EvenWord s.pc))) ∨
      (∃ rs, amountReg i = some rs ∧ 31 < (s.readCur rs).toNat ∧ f = .shiftAmountUndefined (s.readCur rs)) ∨
      (f = .reservedEncoding (encode i) ∧ reservedWord (encode i) = true)) ∧
    (∀ r, exec i s = .refused r → r = .undocumentedOpcode (encode i) ∧ encode i &&& 0xC000#16 = 0xC000#16)

/-- Where every documented instruction completes (R22, R180), all forms at once: `exec` of every word outside the
reserved (D17, D19, log 14) and the undocumented (D20, log 15) rows answers a next state when the pc is even and no R15
is the destination (D9, log 12) and, for LSH(2), the amount is at most 31 (D18, log 13). What that next state holds,
and the forms with R15 as destination, are said per instruction by `BranchesFollowTheConditionTable` and by the
statements in `WritesResult` and `FlagsOnly` below. -/
def Obligations.EveryDocumentedInstructionCompletes : Prop :=
  ∀ (w : Half) (s : State), reservedWord w = false → w &&& 0xC000#16 ≠ 0xC000#16 → EvenWord s.pc →
    (∀ b, dest (decodeWord w) ≠ some (b, Reg.pc)) →
    (∀ rs, amountReg (decodeWord w) = some rs → (s.readCur rs).toNat ≤ 31) →
    ∃ t, exec (decodeWord w) s = .next t

/-! ### B -/

/-- B (R100, R101; C2, C3, D7, D8, D23, logs 11, 22, 23 and 29): each of the fifteen conditions reads bits 31 to 28 of
the current sr by the table, and a branch goes to its own address plus the offset (plus PC_WRITE_BIAS) when its
condition holds and to the next instruction otherwise, changing nothing else. -/
def Obligations.BranchesFollowTheConditionTable : Prop :=
  ∀ (s : State) (off : BitVec 9), EvenWord s.pc →
    let n := (s.readCur Reg.sr).getLsbD 31
    let z := (s.readCur Reg.sr).getLsbD 30
    let c := (s.readCur Reg.sr).getLsbD 29
    let v := (s.readCur Reg.sr).getLsbD 28
    Branches s off (z = true) (exec (.beq off) s) ∧ Branches s off (z = false) (exec (.bne off) s) ∧
    Branches s off (c = true) (exec (.bcs off) s) ∧ Branches s off (c = false) (exec (.bcc off) s) ∧
    Branches s off (n = true) (exec (.bmi off) s) ∧ Branches s off (n = false) (exec (.bpl off) s) ∧
    Branches s off (v = true) (exec (.bvs off) s) ∧ Branches s off (v = false) (exec (.bvc off) s) ∧
    Branches s off (c = true ∧ z = false) (exec (.bhi off) s) ∧
    Branches s off (c = false ∨ z = true) (exec (.bls off) s) ∧
    Branches s off (n = v) (exec (.bge off) s) ∧ Branches s off (n ≠ v) (exec (.blt off) s) ∧
    Branches s off (n = v ∧ z = false) (exec (.bgt off) s) ∧
    Branches s off (n ≠ v ∨ z = true) (exec (.ble off) s) ∧
    Branches s off True (exec (.bal off) s)

/-- B with AL does not read sr (R100; D31, log 26): whatever the current sr holds, the answer is the same, with that sr
kept. -/
def Obligations.AlwaysBranchReadsNoStatus : Prop :=
  ∀ (s : State) (off : BitVec 9) (v : Word),
    exec (.bal off) (s.setReg s.mode Reg.sr v) =
      mapNext (fun t => t.setReg s.mode Reg.sr v) (exec (.bal off) s)

/-- What the conditions mean after a comparison (R100's last column, R133; D11, D15, D23, D28, D29, logs 17, 20, 22,
29): after CMP(1) or CMP(2) on a and b with the default unsigned C, the signed conditions compare a with b in the
natural order, and the unsigned ones come out reversed: HI holds when b is the higher. -/
def Obligations.ConditionsAfterAComparison : Prop :=
  ∀ s t : State, s.params.cmpCCompare = .unsigned →
    (∀ (rn rx : Reg) (bn bx : BankSel), exec (.cmp2 rn bn bx rx) s = .next t →
      ConditionMeanings (s.readSel bn rn) (s.readSel bx rx) t.flags) ∧
    (∀ (rs : Reg) (imm : BitVec 8), exec (.cmp1 rs imm) s = .next t →
      ConditionMeanings (s.readCur rs) (imm.signExtend 32) t.flags)

/-! ### Arithmetic -/

/-- ADD(1) (R110; D7 to D10, D12, D14, D15, D23, D24, logs 11, 12, 16, 18, 20, 22, 23): Rd becomes Rd + Rs + immed
modulo 2^32, both registers of the current bank as they were, the immediate widened by ADDSUB_IMM_EXT; no flag changes.
It completes in every state, but for R15 as destination with an odd sum. -/
def Obligations.Add1WritesTheSum : Prop :=
  ∀ (s : State) (rd rs : Reg) (imm : BitVec 4),
    (s.params.addSubImmExt = .zero →
      WritesResult s .current rd (s.readCur rd + s.readCur rs + imm.setWidth 32) (exec (.add1 rd imm rs) s)) ∧
    (s.params.addSubImmExt = .sign →
      WritesResult s .current rd (s.readCur rd + s.readCur rs + imm.signExtend 32) (exec (.add1 rd imm rs) s))

/-- ADD(2) (R111; D7 to D10, D12, D14, D15, D23, D24, logs 11, 12, 16, 18, 20, 22, 23): Rd becomes Rd + immed modulo
2^32; no flag changes. -/
def Obligations.Add2WritesTheSum : Prop :=
  ∀ (s : State) (rd : Reg) (imm : BitVec 8),
    (s.params.addSubImmExt = .zero →
      WritesResult s .current rd (s.readCur rd + imm.setWidth 32) (exec (.add2 rd imm) s)) ∧
    (s.params.addSubImmExt = .sign →
      WritesResult s .current rd (s.readCur rd + imm.signExtend 32) (exec (.add2 rd imm) s))

/-- SUB(1) (R120; D7 to D10, D12, D14, D15, D23, D24, logs 11, 12, 16, 18, 20, 22, 23): Rd becomes Rd - Rs - immed
modulo 2^32; no flag changes. -/
def Obligations.Sub1WritesTheDifference : Prop :=
  ∀ (s : State) (rd rs : Reg) (imm : BitVec 4),
    (s.params.addSubImmExt = .zero →
      WritesResult s .current rd (s.readCur rd - s.readCur rs - imm.setWidth 32) (exec (.sub1 rd imm rs) s)) ∧
    (s.params.addSubImmExt = .sign →
      WritesResult s .current rd (s.readCur rd - s.readCur rs - imm.signExtend 32) (exec (.sub1 rd imm rs) s))

/-- SUB(2) (R121; D7 to D10, D12, D14, D15, D23, D24, logs 11, 12, 16, 18, 20, 22, 23): Rd becomes Rd - immed modulo
2^32; no flag changes. -/
def Obligations.Sub2WritesTheDifference : Prop :=
  ∀ (s : State) (rd : Reg) (imm : BitVec 8),
    (s.params.addSubImmExt = .zero →
      WritesResult s .current rd (s.readCur rd - imm.setWidth 32) (exec (.sub2 rd imm) s)) ∧
    (s.params.addSubImmExt = .sign →
      WritesResult s .current rd (s.readCur rd - imm.signExtend 32) (exec (.sub2 rd imm) s))

/-! ### Comparison -/

/-- CMP(1) (R130; D7, D11, D12, D13, D15, D23, D28, D29, logs 17, 19, 20, 22, 23, 29): it completes in every state and
writes N, Z, C, V of the current sr from the register and the sign-extended immediate, and nothing else. -/
def Obligations.Cmp1WritesFourFlags : Prop :=
  ∀ (s : State) (rs : Reg) (imm : BitVec 8),
    ∃ t, exec (.cmp1 rs imm) s = .next t ∧
      FlagsOnly s t (compareFlagsSpec s.params.cmpCCompare (s.readCur rs) (imm.signExtend 32))

/-- CMP(2) (R131; D7, D11, D12, D13, D15, D23, D28, D29, logs 17, 19, 20, 22, 23, 29): it completes in every state and
writes N, Z, C, V of the CURRENT sr from two registers, each of the bank its selector names, and nothing else. -/
def Obligations.Cmp2WritesFourFlags : Prop :=
  ∀ (s : State) (rn rx : Reg) (bn bx : BankSel),
    ∃ t, exec (.cmp2 rn bn bx rx) s = .next t ∧
      FlagsOnly s t (compareFlagsSpec s.params.cmpCCompare (s.readSel bn rn) (s.readSel bx rx))

/-- TST (R132; D7, D12, D13, D15, D28, logs 19, 20, 23, 29): it completes in every state; Z is 1 exactly when the
tested bit is clear, N is 1 exactly when bit 31 is tested and set, C and V keep their values, and nothing else changes.
-/
def Obligations.TstWritesTwoFlags : Prop :=
  ∀ (s : State) (rn : Reg) (bn : BankSel) (imm : BitVec 5),
    ∃ t, exec (.tst rn bn imm) s = .next t ∧
      FlagsOnly s t
        { n := decide (imm.toNat = 31) && (s.readSel bn rn).getLsbD 31
          z := !(s.readSel bn rn).getLsbD imm.toNat
          c := s.flags.c
          v := s.flags.v }

/-- `OverflowFrom(a - b)` (R12; D29, log 22) is 1 exactly when the exact signed difference does not fit 32 bits. -/
def Obligations.OverflowIsAnExactDifferenceOutOfRange : Prop :=
  ∀ a b : Word, overflowFromSub a b = true ↔ SignedSubOverflows a b

/-- A comparison is SUB without the write-back (R133; D7, D12, D15, D28, logs 20, 23, 29): N and Z after CMP Rn, Rx are
the sign and the zeroness of what SUB Rn, Rx, #0 stores in Rn, from the same state. -/
def Obligations.ComparisonFlagsAreThoseOfTheDifference : Prop :=
  ∀ (s t u : State) (rn rx : Reg), rn ≠ Reg.sr → rn ≠ Reg.pc →
    exec (.cmp2 rn .current .current rx) s = .next t → exec (.sub1 rn 0 rx) s = .next u →
    t.flags.n = (u.reg s.mode rn).getLsbD 31 ∧ t.flags.z = decide (u.reg s.mode rn = 0)

/-! ### Moves -/

/-- MOV (R140; D7 to D9, D12, D14, D24, logs 11, 12, 18, 20, 23): the destination of either bank becomes the source of
either bank, its bytes b3 b2 b1 b0 as they are, b2 b3 b0 b1 for MOVB, b1 b0 b3 b2 for MOVW, b0 b1 b2 b3 for MOVBW; no
flag changes. It completes in every state, but for R15 or AR15 as destination with an odd value. -/
def Obligations.MovWritesTheReorderedBytes : Prop :=
  ∀ (s : State) (rd rs : Reg) (optB optW : Bool) (bd bs : BankSel),
    WritesResult s bd rd (reorderBytes optB optW (s.readSel bs rs)) (exec (.mov rd optB optW bd bs rs) s)

/-- LDI (R25, R141): in every state it completes and writes the sign-extended 12-bit immediate (D23, log 22) to R13 of
the current bank (D15, log 20); the pc moves two bytes on (D7, log 23), no flag changes (D12, log 20), and nothing else
does. Its word has no register field, and R13 is otherwise a general register: in either bank it reads as stored and
holds the value written to it. -/
def Obligations.LdiWritesTheImmediateRegister : Prop :=
  (∀ (s : State) (imm : BitVec 12),
    ∃ t, exec (.ldi imm) s = .next t ∧ StoresOnly s t s.mode Reg.ir (imm.signExtend 32)) ∧
  (∀ imm : BitVec 12, decodeWord (0b1001#4 ++ imm) = .ldi imm) ∧
  (∀ (s : State) (b : BankSel), s.readSel b Reg.ir = s.reg (s.selMode b) Reg.ir) ∧
  (∀ (s : State) (b : BankSel) (v : Word),
    ∃ t, s.writeSel b Reg.ir v = .next t ∧ StoresOnly s t (s.selMode b) Reg.ir v)

/-! ### Shifts -/

/-- LSH(1) (R150, R151; D7 to D9, D12, D14, D15, D16, D24, logs 11, 12, 18, 20, 21, 23): Rd becomes itself shifted or
rotated by the immediate, 0 to 31; no flag changes. It completes in every state, but for R15 as destination with an odd
result. -/
def Obligations.ShiftByImmediate : Prop :=
  ∀ (s : State) (rd : Reg) (imm : BitVec 5),
    let x := s.readCur rd
    let n := imm.toNat
    WritesResult s .current rd (x <<< n) (exec (.lslImm rd imm) s) ∧
    WritesResult s .current rd (x >>> n) (exec (.lsrImm rd imm) s) ∧
    WritesResult s .current rd (x <<< n) (exec (.aslImm rd imm) s) ∧
    WritesResult s .current rd (x.sshiftRight n) (exec (.asrImm rd imm) s) ∧
    WritesResult s .current rd (x.rotateLeft n) (exec (.rolImm rd imm) s) ∧
    WritesResult s .current rd (x.rotateRight n) (exec (.rorImm rd imm) s)

/-- LSH(2) (R150, R152; D7 to D9, D12, D14, D15, D16, D18, D24, logs 11, 12, 13, 18, 20, 21, 23): with an amount of at
most 31 in Rs, read whole, Rd becomes itself shifted or rotated by it, both registers as they were; no flag changes. -/
def Obligations.ShiftByRegister : Prop :=
  ∀ (s : State) (rd rs : Reg), (s.readCur rs).toNat ≤ 31 →
    let x := s.readCur rd
    let n := (s.readCur rs).toNat
    WritesResult s .current rd (x <<< n) (exec (.lslReg rd rs) s) ∧
    WritesResult s .current rd (x >>> n) (exec (.lsrReg rd rs) s) ∧
    WritesResult s .current rd (x <<< n) (exec (.aslReg rd rs) s) ∧
    WritesResult s .current rd (x.sshiftRight n) (exec (.asrReg rd rs) s) ∧
    WritesResult s .current rd (x.rotateLeft n) (exec (.rolReg rd rs) s) ∧
    WritesResult s .current rd (x.rotateRight n) (exec (.rorReg rd rs) s)

/-- LSH(2) with an amount above 31 (R152; D18, log 13): all six fault, recording the whole 32-bit amount; there is no
masking to five bits. -/
def Obligations.ShiftAmountAbove31Faults : Prop :=
  ∀ (s : State) (rd rs : Reg), 31 < (s.readCur rs).toNat →
    exec (.lslReg rd rs) s = .fault (.shiftAmountUndefined (s.readCur rs)) ∧
    exec (.lsrReg rd rs) s = .fault (.shiftAmountUndefined (s.readCur rs)) ∧
    exec (.aslReg rd rs) s = .fault (.shiftAmountUndefined (s.readCur rs)) ∧
    exec (.asrReg rd rs) s = .fault (.shiftAmountUndefined (s.readCur rs)) ∧
    exec (.rolReg rd rs) s = .fault (.shiftAmountUndefined (s.readCur rs)) ∧
    exec (.rorReg rd rs) s = .fault (.shiftAmountUndefined (s.readCur rs))

/-- The shift function bit by bit (R150; D16, log 21), for amounts 0 to 31: zeros enter in LSL, ASL and LSR, copies of
bit 31 enter in ASR, and a rotate moves bit k to k + n or k - n modulo 32. -/
def Obligations.ShiftFunctionBitByBit : Prop :=
  ∀ (x : Word) (n k : Nat), n ≤ 31 → k ≤ 31 →
    (shift .lsl x n).getLsbD k = (decide (n ≤ k) && x.getLsbD (k - n)) ∧
    shift .asl x n = shift .lsl x n ∧
    (shift .lsr x n).getLsbD k = (decide (k + n ≤ 31) && x.getLsbD (k + n)) ∧
    (shift .asr x n).getLsbD k = (if k + n ≤ 31 then x.getLsbD (k + n) else x.getLsbD 31) ∧
    (shift .rol x n).getLsbD ((k + n) % 32) = x.getLsbD k ∧
    (shift .ror x n).getLsbD k = x.getLsbD ((k + n) % 32)

/-- ROL by n is ROR by 32 - n for n in 1 to 31, and a rotate is undone by the opposite one (R150; D16, log 21). -/
def Obligations.RotatesAreInverse : Prop :=
  ∀ (x : Word) (n : Nat), n ≤ 31 →
    (1 ≤ n → shift .rol x n = shift .ror x (32 - n)) ∧
    shift .ror (shift .rol x n) n = x ∧ shift .rol (shift .ror x n) n = x

/-! ### Rows without a meaning -/

/-- The reserved and unallocated words (R85 to R88, R102, R134, R153, R154; D17, D19, log 14): each word of each of the
five rows decodes to its row, which faults `ReservedEncoding` with that word in every state. -/
def Obligations.ReservedWordsFault : Prop :=
  ∀ (w : Half) (s : State),
    (w &&& 0xFE00#16 = 0x1E00#16 → ∃ off, decodeWord w = .bnv off ∧ exec (.bnv off) s = .fault (.reservedEncoding w)) ∧
    (w &&& 0xF040#16 = 0x7040#16 →
      decodeWord w = .reserved0111 w ∧ exec (.reserved0111 w) s = .fault (.reservedEncoding w)) ∧
    (w &&& 0xF060#16 = 0xB040#16 →
      ∃ rd d imm, decodeWord w = .lsh1Reserved rd d imm ∧
        exec (.lsh1Reserved rd d imm) s = .fault (.reservedEncoding w)) ∧
    (w &&& 0xF070#16 = 0xB060#16 →
      ∃ rd d rs, decodeWord w = .lsh2Reserved rd d rs ∧ exec (.lsh2Reserved rd d rs) s = .fault (.reservedEncoding w)) ∧
    (w &&& 0xE030#16 = 0xA030#16 →
      decodeWord w = .reserved101 w ∧ exec (.reserved101 w) s = .fault (.reservedEncoding w))

/-- Opcodes 110 and 111, BIT and MEM (R89, R172; D20, D34, log 15): every word of theirs is refused, in every state, and
no other word is. -/
def Obligations.UndocumentedWordsAreRefused : Prop :=
  ∀ (w : Half) (s : State),
    (w &&& 0xC000#16 = 0xC000#16 →
      decodeWord w = .undocumented w ∧ exec (.undocumented w) s = .refused (.undocumentedOpcode w)) ∧
    (w &&& 0xC000#16 ≠ 0xC000#16 → ∀ r, exec (decodeWord w) s ≠ .refused r)

/-! ### Registers and the status register -/

/-- Register reads (R10, R28, R31, R36; D14, D33, logs 18 and 23): every register reads as its bank stores it, but for
bit 0 of R14, which reads as the mode in the current bank and by ASR_I_READ in the alternative one; R15 of the current
bank is `State.pc`, the very address the instruction is fetched from (`FetchReadsTwoBytesInOrder`). -/
def Obligations.RegistersReadAsStored : Prop :=
  ∀ s : State,
    (∀ r, r ≠ Reg.sr → s.readCur r = s.reg s.mode r ∧ s.readAlt r = s.reg s.mode.other r) ∧
    (∀ k, 0 < k → (s.readCur Reg.sr).getLsbD k = (s.reg s.mode Reg.sr).getLsbD k ∧
      (s.readAlt Reg.sr).getLsbD k = (s.reg s.mode.other Reg.sr).getLsbD k) ∧
    ((s.readCur Reg.sr).getLsbD 0 = true ↔ s.mode = .interrupt) ∧
    (s.params.asrIRead = .bank → ((s.readAlt Reg.sr).getLsbD 0 = true ↔ s.mode = .normal)) ∧
    (s.params.asrIRead = .mode → ((s.readAlt Reg.sr).getLsbD 0 = true ↔ s.mode = .interrupt)) ∧
    s.readCur Reg.pc = s.pc

/-- I is read-only (R28, R30; D14, log 18): an instruction whose destination is R14 of either bank stores nothing in
bit 0 and cannot change what bit 0 of either status register reads as, nor the mode. -/
def Obligations.StatusBit0IsReadOnly : Prop :=
  ∀ (i : Instr) (s t : State) (b : BankSel), dest i = some (b, Reg.sr) → exec i s = .next t →
    t.mode = s.mode ∧ EvenWord (t.reg (s.selMode b) Reg.sr) ∧
    (t.readCur Reg.sr).getLsbD 0 = (s.readCur Reg.sr).getLsbD 0 ∧
    (t.readAlt Reg.sr).getLsbD 0 = (s.readAlt Reg.sr).getLsbD 0
end

