-- ==== Sys2Proof/Laws/Memory.lean ====
section
/-! SUPPORT. Memory: every operation keeps the canonical form, a read after a write to the same address gives the byte
written, and a write leaves every other address alone (R62). -/

namespace Sys2Proof.Machine

open Sys2Proof

/-- A read at the address just written gives the byte written. -/
@[simp] theorem read_write_self (m : Memory) (a : Nat) (v : Byte) :
    Memory.read (Memory.write m a v) a = some v := by
  induction m with
  | nil => simp [Memory.write, Memory.read]
  | cons c rest ih =>
    obtain ⟨b, x⟩ := c
    unfold Memory.write
    split
    · simp [Memory.read]
    · split
      · simp [Memory.read]
      · next h => simp [Memory.read, h, ih]

/-- A write leaves every other address alone. -/
theorem read_write_of_ne (m : Memory) {a a' : Nat} (v : Byte) (h : a' ≠ a) :
    Memory.read (Memory.write m a v) a' = Memory.read m a' := by
  induction m with
  | nil => simp [Memory.write, Memory.read, h]
  | cons c rest ih =>
    obtain ⟨b, x⟩ := c
    unfold Memory.write
    split
    · simp [Memory.read, h]
    · split
      · next hab => subst hab; simp [Memory.read, h]
      · simp [Memory.read, ih]

/-- Every listed address of a memory is above `lo`. -/
def Above (lo : Nat) (m : Memory) : Prop := ∀ c ∈ m, lo < c.1

/-- The canonical form, one entry at a time. -/
theorem wf_cons (a : Nat) (x : Byte) (m : Memory) :
    Memory.wf ((a, x) :: m) = true ↔ a < 2 ^ 32 ∧ Above a m ∧ Memory.wf m = true := by
  induction m generalizing a x with
  | nil => simp [Memory.wf, Above]
  | cons c rest ih =>
    obtain ⟨b, y⟩ := c
    have hb := ih b y
    simp only [Memory.wf, Bool.and_eq_true, decide_eq_true_eq]
    constructor
    · rintro ⟨hab, hw⟩
      obtain ⟨hlt, habove, -⟩ := hb.1 hw
      refine ⟨by omega, ?_, hw⟩
      intro c hc
      rcases List.mem_cons.1 hc with rfl | hc
      · exact hab
      · have := habove c hc; omega
    · rintro ⟨-, habove, hw⟩
      exact ⟨habove (b, y) (by simp), hw⟩

theorem above_write {lo a : Nat} {m : Memory} (v : Byte) (ha : lo < a) (hm : Above lo m) :
    Above lo (Memory.write m a v) := by
  induction m with
  | nil => intro c hc; simp [Memory.write] at hc; subst hc; exact ha
  | cons d rest ih =>
    obtain ⟨b, x⟩ := d
    have hrest : Above lo rest := fun c hc => hm c (by simp [hc])
    unfold Memory.write
    split
    · intro c hc
      rcases List.mem_cons.1 hc with rfl | hc
      · exact ha
      · exact hm c hc
    · split
      · intro c hc
        rcases List.mem_cons.1 hc with rfl | hc
        · exact ha
        · exact hrest c hc
      · intro c hc
        rcases List.mem_cons.1 hc with rfl | hc
        · exact hm (b, x) (by simp)
        · exact ih hrest c hc

/-- A write of one byte keeps the canonical form. -/
theorem wf_write {m : Memory} {a : Nat} (v : Byte) (ha : a < 2 ^ 32) (hm : Memory.wf m = true) :
    Memory.wf (Memory.write m a v) = true := by
  induction m with
  | nil => simpa [Memory.write, Memory.wf] using ha
  | cons d rest ih =>
    obtain ⟨b, x⟩ := d
    obtain ⟨hb, habove, hrest⟩ := (wf_cons b x rest).1 hm
    unfold Memory.write
    split
    · next hab =>
      refine (wf_cons _ _ _).2 ⟨ha, ?_, hm⟩
      intro c hc
      rcases List.mem_cons.1 hc with rfl | hc
      · exact hab
      · have := habove c hc; omega
    · split
      · next hab => subst hab; exact (wf_cons _ _ _).2 ⟨ha, habove, hrest⟩
      · exact (wf_cons _ _ _).2 ⟨hb, above_write v (by omega) habove, ih hrest⟩

/-- A write of several bytes keeps the canonical form. -/
theorem wf_writeBytes {m : Memory} (a : Word) (bs : List Byte) (hm : Memory.wf m = true) :
    Memory.wf (Memory.writeBytes m a bs) = true := by
  induction bs generalizing m a with
  | nil => exact hm
  | cons b bs ih => exact ih (a + 1) (wf_write b a.isLt hm)

/-- `MemWrite` keeps the canonical form. -/
theorem wf_memWrite (o : ByteOrder) {m : Memory} (a : Word) (n v : Nat) (hm : Memory.wf m = true) :
    Memory.wf (memWrite o m a n v) = true :=
  wf_writeBytes a _ hm

/-- A launch image laid out word by word is in canonical form. -/
theorem wf_loadImage (o : ByteOrder) (ws : List (Word × Half)) : Memory.wf (loadImage o ws) = true := by
  induction ws with
  | nil => rfl
  | cons c rest ih => exact wf_memWrite o _ _ _ ih

/-- The memory at reset has the canonical form. -/
theorem wf_reset : Memory.wf State.reset.mem = true := rfl

end Sys2Proof.Machine
end

