-- ==== Sys2Proof/Laws/State.lean ====
section
/-! SUPPORT. One lemma per field per update, tagged simp, and the read-over-write laws of the stored registers, so that
no later proof unfolds a record update. -/

namespace Sys2Proof.Machine

open Sys2Proof

/-! ### The modes -/

@[simp] theorem other_ne (m : Mode) : m.other ≠ m := by cases m <;> decide
@[simp] theorem ne_other (m : Mode) : m ≠ m.other := by cases m <;> decide
@[simp] theorem other_other (m : Mode) : m.other.other = m := by cases m <;> rfl

theorem eq_other_of_ne {m m' : Mode} (h : m' ≠ m) : m' = m.other := by
  cases m <;> cases m' <;> simp_all [Mode.other]

/-! ### Storing a register -/

@[simp] theorem setReg_mode (s : State) (m : Mode) (r : Reg) (v : Word) : (s.setReg m r v).mode = s.mode := by
  cases m <;> rfl
@[simp] theorem setReg_mem (s : State) (m : Mode) (r : Reg) (v : Word) : (s.setReg m r v).mem = s.mem := by
  cases m <;> rfl
@[simp] theorem setReg_irq (s : State) (m : Mode) (r : Reg) (v : Word) : (s.setReg m r v).irq = s.irq := by
  cases m <;> rfl
@[simp] theorem setReg_params (s : State) (m : Mode) (r : Reg) (v : Word) : (s.setReg m r v).params = s.params := by
  cases m <;> rfl

@[simp] theorem reg_setReg_self (s : State) (m : Mode) (r : Reg) (v : Word) : (s.setReg m r v).reg m r = v := by
  cases m <;> simp [State.setReg, State.reg, State.bank]

theorem reg_setReg_of_mode_ne (s : State) {m m' : Mode} (r r' : Reg) (v : Word) (h : m' ≠ m) :
    (s.setReg m r v).reg m' r' = s.reg m' r' := by
  cases m <;> cases m' <;> first | exact absurd rfl h | rfl

theorem reg_setReg_of_reg_ne (s : State) (m : Mode) {r r' : Reg} (v : Word) (h : r' ≠ r) :
    (s.setReg m r v).reg m r' = s.reg m r' := by
  have hn : (r : Nat) ≠ r' := fun e => h (Fin.ext e.symm)
  cases m <;> simp [State.setReg, State.reg, State.bank, Vector.getElem_set_ne _ _ hn]

/-- Reading any register after storing one: the stored value at the same place, the old value elsewhere. -/
theorem reg_setReg (s : State) (m m' : Mode) (r r' : Reg) (v : Word) :
    (s.setReg m r v).reg m' r' = if m' = m ∧ r' = r then v else s.reg m' r' := by
  by_cases hm : m' = m
  · subst hm
    by_cases hr : r' = r
    · subst hr; simp
    · rw [reg_setReg_of_reg_ne s m' v hr, if_neg (fun h => hr h.2)]
  · rw [reg_setReg_of_mode_ne s r r' v hm, if_neg (fun h => hm h.1)]

/-! ### The pc's advance and its explicit write -/

@[simp] theorem advance_mode (s : State) : s.advance.mode = s.mode := by simp [State.advance]
@[simp] theorem advance_mem (s : State) : s.advance.mem = s.mem := by simp [State.advance]
@[simp] theorem advance_irq (s : State) : s.advance.irq = s.irq := by simp [State.advance]
@[simp] theorem advance_params (s : State) : s.advance.params = s.params := by simp [State.advance]
@[simp] theorem advance_pc (s : State) : s.advance.pc = s.pc + 2 := by simp [State.advance, State.pc]

theorem reg_advance (s : State) (m : Mode) (r : Reg) :
    s.advance.reg m r = if m = s.mode ∧ r = Reg.pc then s.pc + 2 else s.reg m r := by
  simp only [State.advance, reg_setReg]

@[simp] theorem jump_mode (s : State) (v : Word) : (s.jump v).mode = s.mode := by simp [State.jump]
@[simp] theorem jump_mem (s : State) (v : Word) : (s.jump v).mem = s.mem := by simp [State.jump]
@[simp] theorem jump_irq (s : State) (v : Word) : (s.jump v).irq = s.irq := by simp [State.jump]
@[simp] theorem jump_params (s : State) (v : Word) : (s.jump v).params = s.params := by simp [State.jump]

theorem reg_jump (s : State) (v : Word) (m : Mode) (r : Reg) :
    (s.jump v).reg m r = if m = s.mode ∧ r = Reg.pc then v + biasOf s.params.pcWriteBias else s.reg m r := by
  simp only [State.jump, reg_setReg]

/-! ### The flags -/

@[simp] theorem setFlags_mode (s : State) (f : Flags) : (s.setFlags f).mode = s.mode := by simp [State.setFlags]
@[simp] theorem setFlags_mem (s : State) (f : Flags) : (s.setFlags f).mem = s.mem := by simp [State.setFlags]
@[simp] theorem setFlags_irq (s : State) (f : Flags) : (s.setFlags f).irq = s.irq := by simp [State.setFlags]
@[simp] theorem setFlags_params (s : State) (f : Flags) : (s.setFlags f).params = s.params := by simp [State.setFlags]

theorem reg_setFlags (s : State) (f : Flags) (m : Mode) (r : Reg) :
    (s.setFlags f).reg m r =
      if m = s.mode ∧ r = Reg.sr then withFlags (s.reg s.mode Reg.sr) f else s.reg m r := by
  simp only [State.setFlags, reg_setReg]

/-! ### Interrupt entry and the event stream -/

@[simp] theorem enterInterrupt_mode (s : State) : s.enterInterrupt.mode = .interrupt := rfl
@[simp] theorem enterInterrupt_mem (s : State) : s.enterInterrupt.mem = s.mem := rfl
@[simp] theorem enterInterrupt_params (s : State) : s.enterInterrupt.params = s.params := rfl
@[simp] theorem enterInterrupt_irq (s : State) : s.enterInterrupt.irq = s.irq.tail := rfl
@[simp] theorem enterInterrupt_reg (s : State) (m : Mode) (r : Reg) : s.enterInterrupt.reg m r = s.reg m r := by
  cases m <;> rfl

/-- The event stream's tick changes the event stream alone. -/
theorem tickIrq_eq (s : State) : ∃ es, s.tickIrq = { s with irq := es } := by
  unfold State.tickIrq
  split
  · exact ⟨_, rfl⟩
  · exact ⟨s.irq, rfl⟩

@[simp] theorem tickIrq_mode (s : State) : s.tickIrq.mode = s.mode := by
  obtain ⟨es, h⟩ := tickIrq_eq s; rw [h]
@[simp] theorem tickIrq_mem (s : State) : s.tickIrq.mem = s.mem := by
  obtain ⟨es, h⟩ := tickIrq_eq s; rw [h]
@[simp] theorem tickIrq_params (s : State) : s.tickIrq.params = s.params := by
  obtain ⟨es, h⟩ := tickIrq_eq s; rw [h]
@[simp] theorem tickIrq_reg (s : State) (m : Mode) (r : Reg) : s.tickIrq.reg m r = s.reg m r := by
  obtain ⟨es, h⟩ := tickIrq_eq s; rw [h]; cases m <;> rfl

/-! ### Replacing a bank, placing a word -/

@[simp] theorem withBank_mode (s : State) (m : Mode) (b : Vector Word 16) : (s.withBank m b).mode = s.mode := by
  cases m <;> rfl
@[simp] theorem withBank_mem (s : State) (m : Mode) (b : Vector Word 16) : (s.withBank m b).mem = s.mem := by
  cases m <;> rfl
@[simp] theorem withBank_irq (s : State) (m : Mode) (b : Vector Word 16) : (s.withBank m b).irq = s.irq := by
  cases m <;> rfl
@[simp] theorem withBank_params (s : State) (m : Mode) (b : Vector Word 16) : (s.withBank m b).params = s.params := by
  cases m <;> rfl

theorem reg_withBank (s : State) (m m' : Mode) (b : Vector Word 16) (r : Reg) :
    (s.withBank m b).reg m' r = if m' = m then b[r] else s.reg m' r := by
  cases m <;> cases m' <;> rfl

@[simp] theorem withFetchWord_mode (s : State) (n w : Nat) : (s.withFetchWord n w).mode = s.mode := rfl
@[simp] theorem withFetchWord_params (s : State) (n w : Nat) : (s.withFetchWord n w).params = s.params := rfl
@[simp] theorem withFetchWord_reg (s : State) (n w : Nat) (m : Mode) (r : Reg) :
    (s.withFetchWord n w).reg m r = s.reg m r := by
  cases m <;> rfl

end Sys2Proof.Machine
end

