-- ==== Sys2Proof/Laws/Ops.lean ====
section
/-! SUPPORT. One lemma per shared operation that says once everything it can do: register writes (R11), B (R101), the
flag writers (R130 to R132), and one inversion lemma for `exec` and one for `step`. -/

namespace Sys2Proof.Machine

open Sys2Proof

/-! ### Bits of a status register -/

/-- Replacing bit 0 replaces bit 0 and nothing else. -/
theorem getLsbD_withBit0 (v : Word) (b : Bool) (k : Nat) :
    (withBit0 v b).getLsbD k = if k = 0 then b else v.getLsbD k := by
  simp only [withBit0, BitVec.getLsbD_append, BitVec.getLsbD_extractLsb']
  rcases Nat.eq_zero_or_pos k with rfl | hk
  · simp
  · have h1 : ¬ k < 1 := by omega
    have h0 : k ≠ 0 := by omega
    by_cases hk' : k - 1 < 31
    · simp [h1, h0, hk', show 1 + (k - 1) = k by omega]
    · simp [h1, h0, hk', BitVec.getLsbD_of_ge v k (by omega)]

/-- Bit 0 reads as replaced. -/
@[simp] theorem withBit0_zero (v : Word) (b : Bool) : (withBit0 v b)[0] = b := by
  rw [← BitVec.getLsbD_eq_getElem, getLsbD_withBit0, if_pos rfl]

@[simp] theorem withBit0_even (v : Word) : EvenWord (withBit0 v false) := by
  rw [EvenWord, getLsbD_withBit0, if_pos rfl]

/-- The flags just written read back as written. -/
@[simp] theorem flagsOf_withFlags (sr : Word) (f : Flags) : flagsOf (withFlags sr f) = f := by
  obtain ⟨n, z, c, v⟩ := f
  simp only [flagsOf, withFlags, BitVec.getLsbD_append, BitVec.getLsbD_extractLsb']
  simp

/-- Writing flags keeps bits 27:0. -/
theorem getLsbD_withFlags (sr : Word) (f : Flags) {k : Nat} (hk : k < 28) :
    (withFlags sr f).getLsbD k = sr.getLsbD k := by
  simp only [withFlags, BitVec.getLsbD_append, BitVec.getLsbD_extractLsb']
  simp [hk]

/-- Writing flags keeps bits 27:0, as one field. -/
@[simp] theorem low_withFlags (sr : Word) (f : Flags) :
    (withFlags sr f).extractLsb' 0 28 = sr.extractLsb' 0 28 := by
  apply BitVec.eq_of_getLsbD_eq
  intro k hk
  simp only [BitVec.getLsbD_extractLsb', Nat.zero_add, getLsbD_withFlags sr f hk]

/-! ### Register writes, branches and flag writers -/

theorem not_odd {v : Word} (h : EvenWord v) : ¬ v.getLsbD 0 = true := by
  rw [h]; decide

theorem odd_of_not_even {v : Word} (h : ¬ EvenWord v) : v.getLsbD 0 = true :=
  Bool.eq_true_of_not_eq_false h

theorem storesOnly_advance (s : State) (m : Mode) (r : Reg) (v : Word) (h : ¬ (m = s.mode ∧ r = Reg.pc)) :
    StoresOnly s (s.setReg m r v).advance m r v := by
  refine ⟨?_, ?_, ?_, by simp, by simp, by simp, by simp⟩
  · rw [reg_advance, setReg_mode, if_neg h, reg_setReg_self]
  · rw [reg_advance, setReg_mode, if_pos ⟨rfl, rfl⟩, State.pc, State.pc, setReg_mode, reg_setReg,
      if_neg (fun e => h ⟨e.1.symm, e.2.symm⟩)]
  · intro m' r' hn
    rw [reg_advance, setReg_mode, if_neg (fun e => hn (.inr e)), reg_setReg, if_neg (fun e => hn (.inl e))]

theorem goesTo_setPc (s : State) (a : Word) : GoesTo s (s.setReg s.mode Reg.pc a) a :=
  ⟨by simp, fun m r hn => by rw [reg_setReg, if_neg hn], by simp, by simp, by simp, by simp⟩

theorem goesTo_advance (s : State) : GoesTo s s.advance (s.pc + 2) :=
  goesTo_setPc s _

theorem goesTo_jump (s : State) (v : Word) : GoesTo s (s.jump v) (v + biasOf s.params.pcWriteBias) :=
  goesTo_setPc s _

/-- A register write answers a next state or the fault of an odd R15, and in a next state it is one of these. -/
theorem writeSel_cases (s : State) (b : BankSel) (r : Reg) (v : Word) :
    (r ≠ Reg.pc ∧ s.writeSel b r v = .next (s.setReg (s.selMode b) r (storedValue r v)).advance) ∨
    (r = Reg.pc ∧ EvenWord v ∧ b = .current ∧ s.writeSel b r v = .next (s.jump v)) ∨
    (r = Reg.pc ∧ EvenWord v ∧ b = .alternative ∧
      s.writeSel b r v = .next (s.setReg s.mode.other Reg.pc v).advance) ∨
    (r = Reg.pc ∧ ¬ EvenWord v ∧ s.writeSel b r v = .fault (.undefinedPcBit0 v)) := by
  by_cases hr : r = Reg.pc
  · subst hr
    by_cases he : EvenWord v
    · cases b
      · exact .inr (.inl ⟨rfl, he, rfl, by rw [State.writeSel.eq_def, if_pos rfl, if_neg (not_odd he)]⟩)
      · exact .inr (.inr (.inl ⟨rfl, he, rfl, by rw [State.writeSel.eq_def, if_pos rfl, if_neg (not_odd he)]⟩))
    · exact .inr (.inr (.inr ⟨rfl, he, by rw [State.writeSel.eq_def, if_pos rfl, if_pos (odd_of_not_even he)]⟩))
  · exact .inl ⟨hr, by rw [State.writeSel.eq_def, if_neg hr]⟩

/-- Everything a register write can do (R11). -/
theorem writeSel_writesResult (s : State) (b : BankSel) (r : Reg) (v : Word) :
    WritesResult s b r v (s.writeSel b r v) := by
  rcases writeSel_cases s b r v with ⟨hr, e⟩ | ⟨hr, he, hb, e⟩ | ⟨hr, he, hb, e⟩ | ⟨hr, he, e⟩
  · rw [WritesResult.eq_def, if_neg hr]
    exact ⟨_, e, storesOnly_advance s _ r _ (fun q => hr q.2)⟩
  · subst hb
    rw [WritesResult.eq_def, if_pos hr, if_pos he]
    exact ⟨_, e, goesTo_jump s v⟩
  · subst hb
    rw [WritesResult.eq_def, if_pos hr, if_pos he]
    exact ⟨_, e, storesOnly_advance s _ _ _ (fun q => other_ne _ q.1)⟩
  · rw [WritesResult.eq_def, if_pos hr, if_neg he]
    exact e

/-- Evenness is evenness of the number. -/
theorem evenWord_iff (v : Word) : EvenWord v ↔ v.toNat % 2 = 0 := by
  rw [EvenWord, ← BitVec.testBit_toNat, Nat.testBit_zero]
  simp

theorem branchOffset_even (off : BitVec 9) : EvenWord (branchOffset off) := by
  rw [evenWord_iff, branchOffset, BitVec.toNat_shiftLeft, Nat.shiftLeft_eq]
  omega

/-- The sum of two even values is even. -/
theorem evenWord_add {a b : Word} (ha : EvenWord a) (hb : EvenWord b) : EvenWord (a + b) := by
  rw [evenWord_iff] at *
  rw [BitVec.toNat_add]
  omega

/-- Everything B can do when its own address is even (R101). -/
theorem branch_branches (k : Cond) (off : BitVec 9) (s : State) (he : EvenWord s.pc) :
    Branches s off (condHolds k s.flags = true) (branch k off s) := by
  by_cases hk : condHolds k s.flags = true
  · have h := writeSel_writesResult s .current Reg.pc (s.readCur Reg.pc + branchOffset off)
    rw [WritesResult.eq_def, if_pos rfl,
      if_pos (show EvenWord (s.readCur Reg.pc + branchOffset off) from evenWord_add he (branchOffset_even off))] at h
    obtain ⟨t, ht, hg⟩ := h
    exact ⟨t, by rw [branch, if_pos hk, ht], .inl ⟨hk, hg⟩⟩
  · exact ⟨_, by rw [branch, if_neg hk], .inr ⟨hk, goesTo_advance s⟩⟩

/-- Everything a flag writer does (R29). -/
theorem flagsOnly_setFlags (s : State) (f : Flags) : FlagsOnly s (s.setFlags f).advance f := by
  refine ⟨?_, ?_, ?_, ?_, by simp, by simp, by simp, by simp⟩
  · rw [State.flags, advance_mode, setFlags_mode, reg_advance, if_neg (by rintro ⟨-, h⟩; exact absurd h (by decide)),
      reg_setFlags, if_pos ⟨rfl, rfl⟩, flagsOf_withFlags]
  · rw [reg_advance, if_neg (by rintro ⟨-, h⟩; exact absurd h (by decide)), reg_setFlags, if_pos ⟨rfl, rfl⟩,
      low_withFlags]
  · rw [reg_advance, setFlags_mode, if_pos ⟨rfl, rfl⟩, State.pc, setFlags_mode, reg_setFlags,
      if_neg (by rintro ⟨-, h⟩; exact absurd h (by decide)), State.pc]
  · intro m r hn
    rw [reg_advance, setFlags_mode, if_neg (fun e => hn ⟨e.1, .inr e.2⟩), reg_setFlags,
      if_neg (fun e => hn ⟨e.1, .inl e.2⟩)]

/-! ### What an instruction, and what a step, can do -/

/-- Every instruction is a branch, a register write, a flag write, a shift by an amount above 31, a reserved word or an
undocumented one. -/
theorem exec_cases (i : Instr) (s : State) :
    (isBranch i = true ∧ ∃ k off, exec i s = branch k off s) ∨
    (∃ b r v, dest i = some (b, r) ∧ exec i s = s.writeSel b r v) ∨
    (setsFlags i = true ∧ ∃ f, exec i s = .next (s.setFlags f).advance) ∨
    (∃ rs, amountReg i = some rs ∧ 31 < (s.readCur rs).toNat ∧
      exec i s = .fault (.shiftAmountUndefined (s.readCur rs))) ∨
    exec i s = .fault (.reservedEncoding (encode i)) ∨
    exec i s = .refused (.undocumentedOpcode (encode i)) := by
  cases i
  case add1 | add2 | sub1 | sub2 | mov | ldi | lslImm | lsrImm | aslImm | asrImm | rolImm | rorImm =>
    exact .inr (.inl ⟨_, _, _, rfl, rfl⟩)
  case cmp1 | cmp2 | tst => exact .inr (.inr (.inl ⟨rfl, _, rfl⟩))
  case bnv | reserved0111 | lsh1Reserved | lsh2Reserved | reserved101 => exact .inr (.inr (.inr (.inr (.inl rfl))))
  case undocumented => exact .inr (.inr (.inr (.inr (.inr rfl))))
  case bal => exact .inl ⟨rfl, .al, _, rfl⟩
  case lslReg rd rs | lsrReg rd rs | aslReg rd rs | asrReg rd rs | rolReg rd rs | rorReg rd rs =>
    by_cases h : 31 < (s.readCur rs).toNat
    · exact .inr (.inr (.inr (.inl ⟨rs, rfl, h, if_pos h⟩)))
    · exact .inr (.inl ⟨_, _, _, rfl, if_neg h⟩)
  all_goals exact .inl ⟨rfl, _, _, rfl⟩

/-- A step that answers a next state is an interrupt entry, or an instruction that completed and the stream's tick. -/
theorem step_next_cases {s t : State} (h : step s = .next t) :
    (s.irqDue = true ∧ t = s.enterInterrupt) ∨
    (s.irqDue = false ∧ ∃ w u, s.fetch = .ok w ∧ exec (decodeWord w) s = .next u ∧ t = u.tickIrq) := by
  unfold step at h
  split at h
  · next hd => exact .inl ⟨hd, by simpa using h.symm⟩
  · next hd =>
    refine .inr ⟨by simpa using hd, ?_⟩
    split at h
    · cases h
    · next w hw =>
      cases hx : exec (decodeWord w) s with
      | next u => rw [hx] at h; exact ⟨w, u, hw, hx, by simpa [afterInstr] using h.symm⟩
      | fault f => rw [hx] at h; cases h
      | refused r => rw [hx] at h; cases h

/-- What every step keeps, every run keeps. -/
theorem run_keeps (M : Host.Core) (P : M.State → Prop) (hP : ∀ s t, P s → M.step s = .next t → P t) (k : Nat)
    (s t : M.State) (hs : P s) (h : M.run k s = .next t) : P t := by
  induction k generalizing s with
  | zero => cases h; exact hs
  | succ k ih =>
    rw [Host.Core.run] at h
    split at h
    · next u hu => exact ih u (hP s u hs hu) h
    · cases h
    · cases h

end Sys2Proof.Machine
end

