-- ==== Sys2Proof/Laws/PerInstr.lean ====
section
/-! SUPPORT. The law family `OpcodeField`: bits 15:13 of every well-formed instruction's word are its opcode (R70, R83),
one lemma per constructor. -/

namespace Sys2Proof.Laws.OpcodeField

open Sys2Proof

/-- The opcodes the opcode map gives a row (R83, R84): one, but two for the undocumented row (R89). -/
def opcodes : Instr → List (BitVec 3)
  | .beq _ | .bne _ | .bcs _ | .bcc _ | .bmi _ | .bpl _ => [0b000#3]
  | .bvs _ | .bvc _ | .bhi _ | .bls _ | .bge _ | .blt _ => [0b000#3]
  | .bgt _ | .ble _ | .bal _ | .bnv _ => [0b000#3]
  | .add1 _ _ _ | .add2 _ _ => [0b001#3]
  | .sub1 _ _ _ | .sub2 _ _ => [0b010#3]
  | .cmp1 _ _ | .cmp2 _ _ _ _ | .tst _ _ _ | .reserved0111 _ => [0b011#3]
  | .mov _ _ _ _ _ _ | .ldi _ => [0b100#3]
  | .lslImm _ _ | .lsrImm _ _ | .aslImm _ _ | .asrImm _ _ | .rolImm _ _ | .rorImm _ _ => [0b101#3]
  | .lsh1Reserved _ _ _ | .lslReg _ _ | .lsrReg _ _ | .aslReg _ _ | .asrReg _ _ | .rolReg _ _ => [0b101#3]
  | .rorReg _ _ | .lsh2Reserved _ _ _ | .reserved101 _ => [0b101#3]
  | .undocumented _ => [0b110#3, 0b111#3]

/-- The family's statement. -/
def Statement (i : Instr) : Prop :=
  i.WellFormed = true → field (encode i) 13 3 ∈ opcodes i

/-- A field is known from its bits. -/
theorem field_eq_of_bits {w : Half} {x : BitVec 3} (h0 : w.getLsbD 13 = x.getLsbD 0) (h1 : w.getLsbD 14 = x.getLsbD 1)
    (h2 : w.getLsbD 15 = x.getLsbD 2) : field w 13 3 = x := by
  apply BitVec.eq_of_getLsbD_eq
  intro k hk
  have hk' : k = 0 ∨ k = 1 ∨ k = 2 := by omega
  rcases hk' with rfl | rfl | rfl <;> simp only [field, BitVec.getLsbD_extractLsb'] <;> simpa

/-- Format B puts the opcode 000 on top (R73). -/
theorem field_encodeB (cond : BitVec 4) (off : BitVec 9) : field (encodeB cond off) 13 3 ∈ [0b000#3] := by
  rw [List.mem_singleton]
  apply field_eq_of_bits <;> simp only [encodeB, BitVec.getLsbD_append] <;> simp

/-- Format LSH1 puts the opcode 101 on top (R80). -/
theorem field_encodeLsh1 (a d r : Bool) (rd : Reg) (imm : BitVec 5) :
    field (encodeLsh1 a d r rd imm) 13 3 ∈ [0b101#3] := by
  rw [List.mem_singleton]
  apply field_eq_of_bits <;> simp only [encodeLsh1, BitVec.getLsbD_append] <;> simp

/-- Format LSH2 puts the opcode 101 on top (R81). -/
theorem field_encodeLsh2 (a d r : Bool) (rd rs : Reg) : field (encodeLsh2 a d r rd rs) 13 3 ∈ [0b101#3] := by
  rw [List.mem_singleton]
  apply field_eq_of_bits <;> simp only [encodeLsh2, BitVec.getLsbD_append] <;> simp

/-- A bit of a word whose masked value is known. -/
theorem bit_of_masked {w m v : Half} (h : w &&& m = v) (k : Nat) (hk : m.getLsbD k = true) :
    w.getLsbD k = v.getLsbD k := by
  rw [← h, BitVec.getLsbD_and, hk, Bool.and_true]

theorem beq (off : BitVec 9) : Statement (.beq off) :=
  fun _ => field_encodeB _ _

theorem bne (off : BitVec 9) : Statement (.bne off) :=
  fun _ => field_encodeB _ _

theorem bcs (off : BitVec 9) : Statement (.bcs off) :=
  fun _ => field_encodeB _ _

theorem bcc (off : BitVec 9) : Statement (.bcc off) :=
  fun _ => field_encodeB _ _

theorem bmi (off : BitVec 9) : Statement (.bmi off) :=
  fun _ => field_encodeB _ _

theorem bpl (off : BitVec 9) : Statement (.bpl off) :=
  fun _ => field_encodeB _ _

theorem bvs (off : BitVec 9) : Statement (.bvs off) :=
  fun _ => field_encodeB _ _

theorem bvc (off : BitVec 9) : Statement (.bvc off) :=
  fun _ => field_encodeB _ _

theorem bhi (off : BitVec 9) : Statement (.bhi off) :=
  fun _ => field_encodeB _ _

theorem bls (off : BitVec 9) : Statement (.bls off) :=
  fun _ => field_encodeB _ _

theorem bge (off : BitVec 9) : Statement (.bge off) :=
  fun _ => field_encodeB _ _

theorem blt (off : BitVec 9) : Statement (.blt off) :=
  fun _ => field_encodeB _ _

theorem bgt (off : BitVec 9) : Statement (.bgt off) :=
  fun _ => field_encodeB _ _

theorem ble (off : BitVec 9) : Statement (.ble off) :=
  fun _ => field_encodeB _ _

theorem bal (off : BitVec 9) : Statement (.bal off) :=
  fun _ => field_encodeB _ _

theorem bnv (off : BitVec 9) : Statement (.bnv off) :=
  fun _ => field_encodeB _ _

theorem add1 (rd : Reg) (imm : BitVec 4) (rs : Reg) : Statement (.add1 rd imm rs) := by
  intro _
  refine List.mem_singleton.2 ?_
  apply field_eq_of_bits <;> simp only [encode, BitVec.getLsbD_append] <;> simp

theorem add2 (rd : Reg) (imm : BitVec 8) : Statement (.add2 rd imm) := by
  intro _
  refine List.mem_singleton.2 ?_
  apply field_eq_of_bits <;> simp only [encode, BitVec.getLsbD_append] <;> simp

theorem sub1 (rd : Reg) (imm : BitVec 4) (rs : Reg) : Statement (.sub1 rd imm rs) := by
  intro _
  refine List.mem_singleton.2 ?_
  apply field_eq_of_bits <;> simp only [encode, BitVec.getLsbD_append] <;> simp

theorem sub2 (rd : Reg) (imm : BitVec 8) : Statement (.sub2 rd imm) := by
  intro _
  refine List.mem_singleton.2 ?_
  apply field_eq_of_bits <;> simp only [encode, BitVec.getLsbD_append] <;> simp

theorem cmp1 (rs : Reg) (imm : BitVec 8) : Statement (.cmp1 rs imm) := by
  intro _
  refine List.mem_singleton.2 ?_
  apply field_eq_of_bits <;> simp only [encode, BitVec.getLsbD_append] <;> simp

theorem cmp2 (rn : Reg) (bn : BankSel) (bx : BankSel) (rx : Reg) : Statement (.cmp2 rn bn bx rx) := by
  intro _
  refine List.mem_singleton.2 ?_
  apply field_eq_of_bits <;> simp only [encode, BitVec.getLsbD_append] <;> simp

theorem tst (rn : Reg) (bn : BankSel) (imm : BitVec 5) : Statement (.tst rn bn imm) := by
  intro _
  refine List.mem_singleton.2 ?_
  apply field_eq_of_bits <;> simp only [encode, BitVec.getLsbD_append] <;> simp

theorem reserved0111 (w : Half) : Statement (.reserved0111 w) := by
  intro h
  have hw := eq_of_beq h
  exact List.mem_singleton.2 (field_eq_of_bits (bit_of_masked hw 13 rfl) (bit_of_masked hw 14 rfl)
    (bit_of_masked hw 15 rfl))

theorem mov (rd : Reg) (optB : Bool) (optW : Bool) (bd : BankSel) (bs : BankSel) (rs : Reg) : Statement (.mov rd optB optW bd bs rs) := by
  intro _
  refine List.mem_singleton.2 ?_
  apply field_eq_of_bits <;> simp only [encode, BitVec.getLsbD_append] <;> simp

theorem ldi (imm : BitVec 12) : Statement (.ldi imm) := by
  intro _
  refine List.mem_singleton.2 ?_
  apply field_eq_of_bits <;> simp only [encode, BitVec.getLsbD_append] <;> simp

theorem lslImm (rd : Reg) (imm : BitVec 5) : Statement (.lslImm rd imm) :=
  fun _ => field_encodeLsh1 _ _ _ _ _

theorem lsrImm (rd : Reg) (imm : BitVec 5) : Statement (.lsrImm rd imm) :=
  fun _ => field_encodeLsh1 _ _ _ _ _

theorem aslImm (rd : Reg) (imm : BitVec 5) : Statement (.aslImm rd imm) :=
  fun _ => field_encodeLsh1 _ _ _ _ _

theorem asrImm (rd : Reg) (imm : BitVec 5) : Statement (.asrImm rd imm) :=
  fun _ => field_encodeLsh1 _ _ _ _ _

theorem rolImm (rd : Reg) (imm : BitVec 5) : Statement (.rolImm rd imm) :=
  fun _ => field_encodeLsh1 _ _ _ _ _

theorem rorImm (rd : Reg) (imm : BitVec 5) : Statement (.rorImm rd imm) :=
  fun _ => field_encodeLsh1 _ _ _ _ _

theorem lsh1Reserved (rd : Reg) (d : Bool) (imm : BitVec 5) : Statement (.lsh1Reserved rd d imm) :=
  fun _ => field_encodeLsh1 _ _ _ _ _

theorem lslReg (rd : Reg) (rs : Reg) : Statement (.lslReg rd rs) :=
  fun _ => field_encodeLsh2 _ _ _ _ _

theorem lsrReg (rd : Reg) (rs : Reg) : Statement (.lsrReg rd rs) :=
  fun _ => field_encodeLsh2 _ _ _ _ _

theorem aslReg (rd : Reg) (rs : Reg) : Statement (.aslReg rd rs) :=
  fun _ => field_encodeLsh2 _ _ _ _ _

theorem asrReg (rd : Reg) (rs : Reg) : Statement (.asrReg rd rs) :=
  fun _ => field_encodeLsh2 _ _ _ _ _

theorem rolReg (rd : Reg) (rs : Reg) : Statement (.rolReg rd rs) :=
  fun _ => field_encodeLsh2 _ _ _ _ _

theorem rorReg (rd : Reg) (rs : Reg) : Statement (.rorReg rd rs) :=
  fun _ => field_encodeLsh2 _ _ _ _ _

theorem lsh2Reserved (rd : Reg) (d : Bool) (rs : Reg) : Statement (.lsh2Reserved rd d rs) :=
  fun _ => field_encodeLsh2 _ _ _ _ _

theorem reserved101 (w : Half) : Statement (.reserved101 w) := by
  intro h
  have hw := eq_of_beq h
  exact List.mem_singleton.2 (field_eq_of_bits (bit_of_masked hw 13 rfl) (bit_of_masked hw 14 rfl)
    (bit_of_masked hw 15 rfl))

theorem undocumented (w : Half) : Statement (.undocumented w) := by
  intro h
  have hw := eq_of_beq h
  have h14 := bit_of_masked hw 14 rfl
  have h15 := bit_of_masked hw 15 rfl
  cases h13 : w.getLsbD 13
  · exact List.mem_cons.2 (.inl (field_eq_of_bits h13 h14 h15))
  · exact List.mem_cons.2 (.inr (List.mem_singleton.2 (field_eq_of_bits h13 h14 h15)))

end Sys2Proof.Laws.OpcodeField
end

