-- ==== Sys2Proof/Tests/Slice0.lean ====
section
/-! SUPPORT. The model's own tests, each a named theorem about fixed values: the ill-formed terms the well-formedness
check refuses, every constructor's decoding from a word written out bit by bit from the figures of R73 to R81, one or two
single steps per instruction, and a witness that the hypotheses of each obligation can be met. The expected values are
those of `95_test_vectors.md`, which derives them from the rules, unless a docstring says otherwise. -/

namespace Sys2Proof.Tests

open Sys2Proof Sys2Proof.Machine

/-! ### The test bench -/

/-- The reset state in mode `m` at pc 0x100, with some registers stored. -/
def bench (m : Mode) (regs : List (Mode × Reg × Word)) : State :=
  regs.foldl (fun s c => s.setReg c.1 c.2.1 c.2.2) (({ State.reset with mode := m } : State).setReg m Reg.pc 0x100)

/-- The step that fetches and runs the word `w`. -/
def runWord (s : State) (w : Half) : Outcome := step (s.withFetchWord 16 w.toNat)

/-- What a register stores in the next state. -/
def regAfter (o : Outcome) (m : Mode) (r : Reg) : Option Word :=
  match o with
  | .next t => some (t.reg m r)
  | .fault _ => none
  | .refused _ => none

/-- The fault of an answer. -/
def faultOf : Outcome → Option Fault
  | .next _ => none
  | .fault f => some f
  | .refused _ => none

/-- The refusal of an answer. -/
def refusalOf : Outcome → Option Refusal
  | .next _ => none
  | .fault _ => none
  | .refused r => some r

/-! ### Well-formedness -/

theorem test_wellFormed_refuses_reserved0111 : (Instr.reserved0111 0x7000).WellFormed = false := by decide
theorem test_wellFormed_refuses_reserved101 : (Instr.reserved101 0xA020).WellFormed = false := by decide
theorem test_wellFormed_refuses_undocumented : (Instr.undocumented 0xBFFF).WellFormed = false := by decide
theorem test_wellFormed_accepts : (Instr.reserved0111 0x7040).WellFormed = true ∧
    (Instr.reserved101 0xB0F0).WellFormed = true ∧ (Instr.undocumented 0xC000).WellFormed = true := by decide

/-! ### Decoding, one word per constructor, its boxes separated -/

theorem test_decode_beq : decodeWord 0b000_0000_100000011 = .beq 0x103 := by decide
theorem test_decode_bne : decodeWord 0b000_0001_100000011 = .bne 0x103 := by decide
theorem test_decode_bcs : decodeWord 0b000_0010_100000011 = .bcs 0x103 := by decide
theorem test_decode_bcc : decodeWord 0b000_0011_100000011 = .bcc 0x103 := by decide
theorem test_decode_bmi : decodeWord 0b000_0100_100000011 = .bmi 0x103 := by decide
theorem test_decode_bpl : decodeWord 0b000_0101_100000011 = .bpl 0x103 := by decide
theorem test_decode_bvs : decodeWord 0b000_0110_100000011 = .bvs 0x103 := by decide
theorem test_decode_bvc : decodeWord 0b000_0111_100000011 = .bvc 0x103 := by decide
theorem test_decode_bhi : decodeWord 0b000_1000_100000011 = .bhi 0x103 := by decide
theorem test_decode_bls : decodeWord 0b000_1001_100000011 = .bls 0x103 := by decide
theorem test_decode_bge : decodeWord 0b000_1010_100000011 = .bge 0x103 := by decide
theorem test_decode_blt : decodeWord 0b000_1011_100000011 = .blt 0x103 := by decide
theorem test_decode_bgt : decodeWord 0b000_1100_100000011 = .bgt 0x103 := by decide
theorem test_decode_ble : decodeWord 0b000_1101_100000011 = .ble 0x103 := by decide
theorem test_decode_bal : decodeWord 0b000_1110_100000011 = .bal 0x103 := by decide
theorem test_decode_bnv : decodeWord 0b000_1111_100000011 = .bnv 0x103 := by decide
theorem test_decode_add1 : decodeWord 0b001_0_0101_1001_1110 = .add1 5 9 14 := by decide
theorem test_decode_add2 : decodeWord 0b001_1_0011_11001000 = .add2 3 200 := by decide
theorem test_decode_sub1 : decodeWord 0b010_0_0101_1001_1110 = .sub1 5 9 14 := by decide
theorem test_decode_sub2 : decodeWord 0b010_1_0011_11001000 = .sub2 3 200 := by decide
theorem test_decode_cmp1 : decodeWord 0b011_0_0100_10000001 = .cmp1 4 0x81 := by decide
theorem test_decode_cmp2 : decodeWord 0b011_1_0011_0_0_1_0_1010 = .cmp2 3 .alternative .current 10 := by decide
theorem test_decode_tst : decodeWord 0b011_1_0101_1_0_0_11111 = .tst 5 .current 31 := by decide
theorem test_decode_reserved0111 : decodeWord 0b011_1_0101_0_1_0_11111 = .reserved0111 0b0111_0101_0101_1111 := by decide
theorem test_decode_mov : decodeWord 0b100_0_1111_1_0_0_1_0010 = .mov 15 true false .current .alternative 2 := by decide
theorem test_decode_ldi : decodeWord 0b100_1_100000000001 = .ldi 0x801 := by decide
theorem test_decode_lslImm : decodeWord 0b101_0_0110_0_0_0_10001 = .lslImm 6 17 := by decide
theorem test_decode_lsrImm : decodeWord 0b101_0_0110_1_0_0_10001 = .lsrImm 6 17 := by decide
theorem test_decode_aslImm : decodeWord 0b101_1_0110_0_0_0_10001 = .aslImm 6 17 := by decide
theorem test_decode_asrImm : decodeWord 0b101_1_0110_1_0_0_10001 = .asrImm 6 17 := by decide
theorem test_decode_rolImm : decodeWord 0b101_0_0110_0_1_0_10001 = .rolImm 6 17 := by decide
theorem test_decode_rorImm : decodeWord 0b101_0_0110_1_1_0_10001 = .rorImm 6 17 := by decide
theorem test_decode_lsh1Reserved : decodeWord 0b101_1_0110_1_1_0_10001 = .lsh1Reserved 6 true 17 := by decide
theorem test_decode_lslReg : decodeWord 0b101_0_0110_0_0_1_0_1001 = .lslReg 6 9 := by decide
theorem test_decode_lsrReg : decodeWord 0b101_0_0110_1_0_1_0_1001 = .lsrReg 6 9 := by decide
theorem test_decode_aslReg : decodeWord 0b101_1_0110_0_0_1_0_1001 = .aslReg 6 9 := by decide
theorem test_decode_asrReg : decodeWord 0b101_1_0110_1_0_1_0_1001 = .asrReg 6 9 := by decide
theorem test_decode_rolReg : decodeWord 0b101_0_0110_0_1_1_0_1001 = .rolReg 6 9 := by decide
theorem test_decode_rorReg : decodeWord 0b101_0_0110_1_1_1_0_1001 = .rorReg 6 9 := by decide
theorem test_decode_lsh2Reserved : decodeWord 0b101_1_0110_0_1_1_0_1001 = .lsh2Reserved 6 false 9 := by decide
theorem test_decode_reserved101 : decodeWord 0b101_0_0110_0_0_1_1_1001 = .reserved101 0b1010_0110_0011_1001 := by decide
theorem test_decode_undocumented : decodeWord 0b110_0_0110_0_0_1_1_1001 = .undocumented 0b1100_0110_0011_1001 := by decide
theorem test_decode_opcode_111 : decodeWord 0b111_1_0110_0_0_1_1_1001 = .undocumented 0b1111_0110_0011_1001 := by decide
theorem test_decodeTableWord : decodeTableWord 16 0x2132 = some (.add1 1 3 2) := by decide
theorem test_decode_truncated : decode .little [0x32] = .error .truncated := rfl
theorem test_decode_big : decode .big [0x21, 0x32, 0x77] = .ok (.add1 1 3 2, [0x77]) := rfl

/-! ### Single steps: B -/

theorem test_beq_taken :
    regAfter (runWord (bench .normal [(.normal, 14, 0x40000000)]) 0x0003) .normal 15 = some 0x106 := by decide
theorem test_beq_not_taken :
    regAfter (runWord (bench .normal [(.normal, 14, 0x80000000)]) 0x0003) .normal 15 = some 0x102 := by decide
theorem test_bne_taken :
    regAfter (runWord (bench .normal [(.normal, 14, 0x80000000)]) 0x0203) .normal 15 = some 0x106 := by decide
theorem test_bne_not_taken :
    regAfter (runWord (bench .normal [(.normal, 14, 0x40000000)]) 0x0203) .normal 15 = some 0x102 := by decide
theorem test_bcs_taken :
    regAfter (runWord (bench .normal [(.normal, 14, 0x20000000)]) 0x0403) .normal 15 = some 0x106 := by decide
theorem test_bcs_not_taken :
    regAfter (runWord (bench .normal [(.normal, 14, 0xD0000000)]) 0x0403) .normal 15 = some 0x102 := by decide
theorem test_bcc_taken :
    regAfter (runWord (bench .normal [(.normal, 14, 0xD0000000)]) 0x0603) .normal 15 = some 0x106 := by decide
theorem test_bcc_not_taken :
    regAfter (runWord (bench .normal [(.normal, 14, 0x20000000)]) 0x0603) .normal 15 = some 0x102 := by decide
theorem test_bmi_taken :
    regAfter (runWord (bench .normal [(.normal, 14, 0x80000000)]) 0x0803) .normal 15 = some 0x106 := by decide
theorem test_bmi_not_taken :
    regAfter (runWord (bench .normal [(.normal, 14, 0x70000000)]) 0x0803) .normal 15 = some 0x102 := by decide
theorem test_bpl_taken :
    regAfter (runWord (bench .normal [(.normal, 14, 0x70000000)]) 0x0A03) .normal 15 = some 0x106 := by decide
theorem test_bpl_not_taken :
    regAfter (runWord (bench .normal [(.normal, 14, 0x80000000)]) 0x0A03) .normal 15 = some 0x102 := by decide
theorem test_bvs_taken :
    regAfter (runWord (bench .normal [(.normal, 14, 0x10000000)]) 0x0C03) .normal 15 = some 0x106 := by decide
theorem test_bvs_not_taken :
    regAfter (runWord (bench .normal [(.normal, 14, 0xE0000000)]) 0x0C03) .normal 15 = some 0x102 := by decide
theorem test_bvc_taken :
    regAfter (runWord (bench .normal [(.normal, 14, 0xE0000000)]) 0x0E03) .normal 15 = some 0x106 := by decide
theorem test_bvc_not_taken :
    regAfter (runWord (bench .normal [(.normal, 14, 0x10000000)]) 0x0E03) .normal 15 = some 0x102 := by decide
theorem test_bhi_taken :
    regAfter (runWord (bench .normal [(.normal, 14, 0x20000000)]) 0x1003) .normal 15 = some 0x106 := by decide
theorem test_bhi_not_taken :
    regAfter (runWord (bench .normal [(.normal, 14, 0x60000000)]) 0x1003) .normal 15 = some 0x102 := by decide
theorem test_bls_taken :
    regAfter (runWord (bench .normal [(.normal, 14, 0x60000000)]) 0x1203) .normal 15 = some 0x106 := by decide
theorem test_bls_not_taken :
    regAfter (runWord (bench .normal [(.normal, 14, 0x20000000)]) 0x1203) .normal 15 = some 0x102 := by decide
theorem test_bge_taken :
    regAfter (runWord (bench .normal [(.normal, 14, 0x90000000)]) 0x1403) .normal 15 = some 0x106 := by decide
theorem test_bge_not_taken :
    regAfter (runWord (bench .normal [(.normal, 14, 0x10000000)]) 0x1403) .normal 15 = some 0x102 := by decide
theorem test_blt_taken :
    regAfter (runWord (bench .normal [(.normal, 14, 0x80000000)]) 0x1603) .normal 15 = some 0x106 := by decide
theorem test_blt_not_taken :
    regAfter (runWord (bench .normal [(.normal, 14, 0x00000000)]) 0x1603) .normal 15 = some 0x102 := by decide
theorem test_bgt_taken :
    regAfter (runWord (bench .normal [(.normal, 14, 0x90000000)]) 0x1803) .normal 15 = some 0x106 := by decide
theorem test_bgt_not_taken :
    regAfter (runWord (bench .normal [(.normal, 14, 0x40000000)]) 0x1803) .normal 15 = some 0x102 := by decide
theorem test_ble_taken :
    regAfter (runWord (bench .normal [(.normal, 14, 0x40000000)]) 0x1A03) .normal 15 = some 0x106 := by decide
theorem test_ble_not_taken :
    regAfter (runWord (bench .normal [(.normal, 14, 0x90000000)]) 0x1A03) .normal 15 = some 0x102 := by decide
theorem test_bal_backwards_wraps :
    regAfter (runWord (bench .normal [(.normal, 15, 0x0)]) 0x1DFF) .normal 15 = some 0xFFFFFFFE := by decide
theorem test_bal_lowest_offset :
    regAfter (runWord (bench .normal [(.normal, 15, 0x300)]) 0x1D00) .normal 15 = some 0x100 := by decide
theorem test_bnv_faults :
    faultOf (runWord (bench .normal []) 0x1E00) = some (.reservedEncoding 0x1E00) := by decide

/-! ### Single steps: arithmetic -/

theorem test_add1_wraps :
    regAfter (runWord (bench .normal [(.normal, 1, 0xFFFFFFF0), (.normal, 2, 0x1)]) 0x21F2) .normal 1 = some 0x0 := by decide
theorem test_add1_status_storage :
    regAfter (runWord (bench .normal [(.normal, 14, 0x10000000), (.normal, 1, 0x70000006)]) 0x2E01) .normal 14 = some 0x80000006 := by decide
theorem test_add2_zero_extends :
    regAfter (runWord (bench .normal [(.normal, 3, 0x64)]) 0x33C8) .normal 3 = some 0x12C := by decide
theorem test_add2_odd_pc_faults :
    faultOf (runWord (bench .normal []) 0x3F03) = some (.undefinedPcBit0 0x103) := by decide
theorem test_sub1_wraps :
    regAfter (runWord (bench .normal [(.normal, 1, 0xA), (.normal, 2, 0x14)]) 0x4132) .normal 1 = some 0xFFFFFFF3 := by decide
theorem test_sub1_reads_own_address :
    regAfter (runWord (bench .normal [(.normal, 2, 0x200)]) 0x420F) .normal 2 = some 0x100 := by decide
theorem test_sub2_jumps :
    regAfter (runWord (bench .normal []) 0x5F02) .normal 15 = some 0xFE := by decide
theorem test_sub2_silent_overflow :
    regAfter (runWord (bench .normal [(.normal, 0, 0x80000000)]) 0x50FF) .normal 0 = some 0x7FFFFF01 := by decide

/-! ### Single steps: comparison -/

theorem test_cmp1_overflow :
    regAfter (runWord (bench .normal [(.normal, 4, 0x7FFFFFFF)]) 0x64FF) .normal 14 = some 0xB0000000 := by decide
theorem test_cmp1_keeps_low_bits :
    regAfter (runWord (bench .normal [(.normal, 14, 0xABCDEF0)]) 0x6E00) .normal 14 = some 0xABCDEF0 := by decide
theorem test_cmp2_alternative_operand_current_flags :
    regAfter (runWord (bench .interrupt [(.normal, 3, 0x5), (.interrupt, 0, 0x6)]) 0x7320) .interrupt 14 = some 0xA0000000 := by decide
theorem test_cmp2_carry_is_b_ge_a :
    regAfter (runWord (bench .normal [(.normal, 1, 0x0), (.normal, 2, 0xFFFFFFFF)]) 0x7102) .normal 14 = some 0x20000000 := by decide
theorem test_tst_keeps_c_and_v :
    regAfter (runWord (bench .normal [(.normal, 5, 0x80), (.normal, 14, 0xF0000000)]) 0x7587) .normal 14 = some 0x30000000 := by decide
theorem test_tst_alternative_status_bit0 :
    regAfter (runWord (bench .normal [(.interrupt, 14, 0x0)]) 0x7EA0) .normal 14 = some 0x0 := by decide
theorem test_reserved0111_faults :
    faultOf (runWord (bench .normal []) 0x70C0) = some (.reservedEncoding 0x70C0) := by decide

/-! ### Single steps: moves -/

theorem test_mov_reverses_bytes :
    regAfter (runWord (bench .normal [(.normal, 2, 0x11223344)]) 0x81C2) .normal 1 = some 0x44332211 := by decide
theorem test_mov_to_alternative_pc_is_no_jump :
    regAfter (runWord (bench .normal [(.normal, 1, 0x2000)]) 0x8F21) .normal 15 = some 0x102 := by decide
theorem test_ldi_sign_extends :
    regAfter (runWord (bench .normal [(.normal, 13, 0xDEAD)]) 0x9800) .normal 13 = some 0xFFFFF800 := by decide
theorem test_ldi_writes_current_bank :
    regAfter (runWord (bench .interrupt [(.normal, 13, 0x7)]) 0x9FFF) .normal 13 = some 0x7 := by decide

/-! ### Single steps: shifts -/

theorem test_lslImm_by_4 :
    regAfter (runWord (bench .normal [(.normal, 1, 0x80000001)]) 0xA104) .normal 1 = some 0x10 := by decide
theorem test_lsrImm_by_4 :
    regAfter (runWord (bench .normal [(.normal, 1, 0x80000001)]) 0xA184) .normal 1 = some 0x8000000 := by decide
theorem test_aslImm_by_4 :
    regAfter (runWord (bench .normal [(.normal, 1, 0x80000001)]) 0xB104) .normal 1 = some 0x10 := by decide
theorem test_asrImm_by_4 :
    regAfter (runWord (bench .normal [(.normal, 1, 0x80000001)]) 0xB184) .normal 1 = some 0xF8000000 := by decide
theorem test_rolImm_by_4 :
    regAfter (runWord (bench .normal [(.normal, 1, 0x80000001)]) 0xA144) .normal 1 = some 0x18 := by decide
theorem test_rorImm_by_4 :
    regAfter (runWord (bench .normal [(.normal, 1, 0x80000001)]) 0xA1C4) .normal 1 = some 0x18000000 := by decide
theorem test_lslImm_by_0 :
    regAfter (runWord (bench .normal [(.normal, 1, 0x80000001)]) 0xA100) .normal 1 = some 0x80000001 := by decide
theorem test_lsrImm_by_0 :
    regAfter (runWord (bench .normal [(.normal, 1, 0x80000001)]) 0xA180) .normal 1 = some 0x80000001 := by decide
theorem test_aslImm_by_0 :
    regAfter (runWord (bench .normal [(.normal, 1, 0x80000001)]) 0xB100) .normal 1 = some 0x80000001 := by decide
theorem test_asrImm_by_0 :
    regAfter (runWord (bench .normal [(.normal, 1, 0x80000001)]) 0xB180) .normal 1 = some 0x80000001 := by decide
theorem test_rolImm_by_0 :
    regAfter (runWord (bench .normal [(.normal, 1, 0x80000001)]) 0xA140) .normal 1 = some 0x80000001 := by decide
theorem test_rorImm_by_0 :
    regAfter (runWord (bench .normal [(.normal, 1, 0x80000001)]) 0xA1C0) .normal 1 = some 0x80000001 := by decide
theorem test_lslReg_by_31 :
    regAfter (runWord (bench .normal [(.normal, 1, 0xF00000F0), (.normal, 2, 0x1F)]) 0xA122) .normal 1 = some 0x0 := by decide
theorem test_lsrReg_by_31 :
    regAfter (runWord (bench .normal [(.normal, 1, 0xF00000F0), (.normal, 2, 0x1F)]) 0xA1A2) .normal 1 = some 0x1 := by decide
theorem test_aslReg_by_31 :
    regAfter (runWord (bench .normal [(.normal, 1, 0xF00000F0), (.normal, 2, 0x1F)]) 0xB122) .normal 1 = some 0x0 := by decide
theorem test_asrReg_by_31 :
    regAfter (runWord (bench .normal [(.normal, 1, 0xF00000F0), (.normal, 2, 0x1F)]) 0xB1A2) .normal 1 = some 0xFFFFFFFF := by decide
theorem test_rolReg_by_31 :
    regAfter (runWord (bench .normal [(.normal, 1, 0xF00000F0), (.normal, 2, 0x1F)]) 0xA162) .normal 1 = some 0x78000078 := by decide
theorem test_rorReg_by_31 :
    regAfter (runWord (bench .normal [(.normal, 1, 0xF00000F0), (.normal, 2, 0x1F)]) 0xA1E2) .normal 1 = some 0xE00001E1 := by decide
theorem test_lslReg_by_32_faults :
    faultOf (runWord (bench .normal [(.normal, 1, 0x1), (.normal, 2, 0x20)]) 0xA122) = some (.shiftAmountUndefined 32) := by decide
theorem test_lsrReg_by_32_faults :
    faultOf (runWord (bench .normal [(.normal, 1, 0x1), (.normal, 2, 0x20)]) 0xA1A2) = some (.shiftAmountUndefined 32) := by decide
theorem test_aslReg_by_32_faults :
    faultOf (runWord (bench .normal [(.normal, 1, 0x1), (.normal, 2, 0x20)]) 0xB122) = some (.shiftAmountUndefined 32) := by decide
theorem test_asrReg_by_32_faults :
    faultOf (runWord (bench .normal [(.normal, 1, 0x1), (.normal, 2, 0x20)]) 0xB1A2) = some (.shiftAmountUndefined 32) := by decide
theorem test_rolReg_by_32_faults :
    faultOf (runWord (bench .normal [(.normal, 1, 0x1), (.normal, 2, 0x20)]) 0xA162) = some (.shiftAmountUndefined 32) := by decide
theorem test_rorReg_by_32_faults :
    faultOf (runWord (bench .normal [(.normal, 1, 0x1), (.normal, 2, 0x20)]) 0xA1E2) = some (.shiftAmountUndefined 32) := by decide
theorem test_lsh1Reserved_faults :
    faultOf (runWord (bench .normal []) 0xB15F) = some (.reservedEncoding 0xB15F) := by decide
theorem test_lsh2Reserved_faults :
    faultOf (runWord (bench .normal []) 0xB0E0) = some (.reservedEncoding 0xB0E0) := by decide
theorem test_reserved101_faults :
    faultOf (runWord (bench .normal []) 0xB1F5) = some (.reservedEncoding 0xB1F5) := by decide
theorem test_undocumented_refused : refusalOf (runWord State.reset 0xFFFF) = some (.undocumentedOpcode 0xFFFF) := by decide

/-! ### Reset, fetch, interrupt entry, parameters -/

/-- R200 with the default launch. -/
theorem test_reset : State.reset.pc = 0 ∧ State.reset.mode = .normal ∧ State.reset.irqDue = false := by decide

/-- R55: nothing is admitted where the image lists nothing. -/
theorem test_fetch_not_admitted : faultOf (step State.reset) = some (.fetchNotAdmitted 0) := by decide

/-- R52: the byte at the lower address holds bits 15:8 in a big-endian launch. -/
theorem test_fetch_big : State.fetch { bench .normal [] with
    mem := [(0x100, 0x21), (0x101, 0x32)], params := { Params.default with byteOrder := .big } } = .ok 0x2132 := rfl

/-- R184, R185: the offered event is taken before the fetch; the pc is `apc` and no register changes. -/
theorem test_interrupt_entry :
    regAfter (step { bench .normal [(.interrupt, 15, 0x2000)] with irq := [0, 3] }) .interrupt 15 = some 0x2000 := by
  decide

/-- R33, C3: under `PC_WRITE_BIAS` = 2 `MOV pc, lr` continues at lr + 2. -/
theorem test_pc_write_bias :
    regAfter (runWord { bench .normal [(.normal, 12, 0x300)] with
      params := { Params.default with pcWriteBias := .two } } 0x8F0C) .normal 15 = some 0x302 := by decide

/-- R82, C1: under `ADDSUB_IMM_EXT` = sign, 200 is read as -56. -/
theorem test_addsub_sign :
    regAfter (runWord { bench .normal [(.normal, 3, 0x64)] with
      params := { Params.default with addSubImmExt := .sign } } 0x33C8) .normal 3 = some 0x2C := by decide

/-- R130, D11: under `CMP_C_COMPARE` = signed, -1 >= 0 is false. -/
theorem test_cmp_signed :
    regAfter (runWord { bench .normal [] with
      params := { Params.default with cmpCCompare := .signed } } 0x64FF) .normal 14 = some 0 := by decide

/-- R28, D14: under `ASR_I_READ` = mode, asr bit 0 reads 0 in normal mode. -/
theorem test_asr_mode :
    regAfter (runWord { bench .normal [(.interrupt, 14, 0xA0000010)] with
      params := { Params.default with asrIRead := .mode } } 0x811E) .normal 1 = some 0xA0000010 := by decide

/-! ### Witnesses: each obligation's hypotheses can be met, at the boundaries of its clauses -/

theorem witness_ShiftFormats : (0xBFFF#16).extractLsb' 13 3 = 0b101#3 ∧ (0xBFFF#16).extractLsb' 4 2 = 0b11#2 := by decide

theorem witness_RegisterShiftEncodings :
    dest (.rorReg 15 15) = some (.current, 15) ∧ amountReg (.rorReg 15 15) = some 15 := by decide

theorem witness_DecodeInvertsEncode : (Instr.mov 15 true true .alternative .alternative 15).WellFormed = true ∧
    (Instr.reserved0111 0x7FFF).WellFormed = true ∧ (Instr.reserved101 0xA030).WellFormed = true ∧
    (Instr.undocumented 0xFFFF).WellFormed = true := by decide

theorem witness_TwoBytesDecodeInEitherOrder :
    (Instr.add1 15 15 15).WellFormed = true ∧ ([] : List Byte).length < 2 ∧ ([0x21] : List Byte).length < 2 := by decide

/-- A state whose next instruction is the word `w`. -/
def ready (w : Nat) : State := (bench .normal [(.normal, 1, 1), (.normal, 2, 31)]).withFetchWord 16 w

theorem witness_StepRuns_next : (ready 0x9005).irqDue = false ∧ EvenWord (ready 0x9005).pc ∧
    Memory.readBytes (ready 0x9005).mem (ready 0x9005).pc 2 = some [0x05, 0x90] ∧
    decode (ready 0x9005).params.byteOrder [0x05, 0x90] = .ok (.ldi 5, []) ∧
    ∃ t, exec (.ldi 5) (ready 0x9005) = .next t := ⟨by decide, by decide, by decide, rfl, _, rfl⟩

theorem witness_StepRuns_fault : (ready 0x1E00).irqDue = false ∧ EvenWord (ready 0x1E00).pc ∧
    Memory.readBytes (ready 0x1E00).mem (ready 0x1E00).pc 2 = some [0x00, 0x1E] ∧
    decode (ready 0x1E00).params.byteOrder [0x00, 0x1E] = .ok (.bnv 0, []) ∧
    ∃ f, exec (.bnv 0) (ready 0x1E00) = .fault f := ⟨by decide, by decide, by decide, rfl, _, rfl⟩

theorem witness_StepRuns_refused : (ready 0xC000).irqDue = false ∧ EvenWord (ready 0xC000).pc ∧
    Memory.readBytes (ready 0xC000).mem (ready 0xC000).pc 2 = some [0x00, 0xC0] ∧
    decode (ready 0xC000).params.byteOrder [0x00, 0xC0] = .ok (.undocumented 0xC000, []) ∧
    ∃ r, exec (.undocumented 0xC000) (ready 0xC000) = .refused r := ⟨by decide, by decide, by decide, rfl, _, rfl⟩

theorem witness_StepRuns_tick : (∃ t : State, t.irq = (0 + 1) :: []) ∧ (∃ t : State, t.irq = []) ∧
    ∃ t : State, t.irq = 0 :: [7] :=
  ⟨⟨{ State.reset with irq := [1] }, rfl⟩, ⟨State.reset, rfl⟩, { State.reset with irq := [0, 7] }, rfl⟩

/-- At the top of the address space, in either byte order. -/
theorem witness_Fetch_admitted : ∀ o : ByteOrder, ∃ s : State, s.params.byteOrder = o ∧ EvenWord s.pc ∧
    Memory.read s.mem s.pc.toNat = some 0x32 ∧ Memory.read s.mem (s.pc + 1).toNat = some 0x21 := fun o =>
  ⟨{ bench .normal [(.normal, 15, 0xFFFFFFFE)] with
      mem := [(0xFFFFFFFE, 0x32), (0xFFFFFFFF, 0x21)], params := { Params.default with byteOrder := o } },
    rfl, by cases o <;> decide, by cases o <;> decide, by cases o <;> decide⟩

/-- Each of the two bytes missing alone; an odd pc; and the step with no event due. -/
theorem witness_Fetch_stops :
    (∃ s : State, EvenWord s.pc ∧ Memory.read s.mem s.pc.toNat = none ∧ Memory.read s.mem (s.pc + 1).toNat = some 0x21) ∧
    (∃ s : State, EvenWord s.pc ∧ Memory.read s.mem s.pc.toNat = some 0x32 ∧ Memory.read s.mem (s.pc + 1).toNat = none) ∧
    (∃ s : State, ¬ EvenWord s.pc) ∧
    (∃ s : State, s.irqDue = false ∧ s.fetch = .error (.fetchNotAdmitted 0x100)) :=
  ⟨⟨{ bench .normal [] with mem := [(0x101, 0x21)] }, by decide, by decide, by decide⟩,
    ⟨{ bench .normal [] with mem := [(0x100, 0x32)] }, by decide, by decide, by decide⟩,
    ⟨bench .normal [(.normal, 15, 1)], by decide⟩, ⟨bench .normal [], by decide, rfl⟩⟩

/-- No bytes, and two bytes across the top of the address space, with the address just past them. -/
theorem witness_MemRead : (0 : Nat) ≤ 2 ^ 32 ∧ (2 : Nat) ≤ 2 ^ 32 ∧
    ∀ k, k < 2 → (1 : Nat) ≠ ((0xFFFFFFFF : Word) + BitVec.ofNat 32 k).toNat := by decide

theorem witness_PlacedWordIsExecutedNext : EvenWord State.reset.pc ∧ EvenWord (bench .interrupt []).pc := by decide

theorem witness_InterruptEntrySwapsBanks : ∃ s : State, s.mode = .normal ∧ s.irq = 0 :: [2] ∧ s.params.asrIRead = .bank :=
  ⟨{ bench .normal [] with irq := [0, 2] }, rfl, rfl, rfl⟩

/-- A state in interrupt mode with an event waiting, about to run LDI #5. -/
def waiting : State := { (bench .interrupt []).withFetchWord 16 0x9005 with irq := [0, 2] }

theorem witness_InterruptEventWaits :
    waiting.mode = .interrupt ∧ waiting.irq = 0 :: [2] ∧ ∃ t, step waiting = .next t := ⟨rfl, rfl, _, rfl⟩

theorem witness_OnlyInterruptEntryChangesTheMode :
    (∃ t, exec (.ldi 5) (bench .normal []) = .next t) ∧
    (∃ s t : State, step s = .next t ∧ t.mode ≠ s.mode) ∧
    (∃ (s t : State), s.mode = .interrupt ∧ Sys2Proof.core.run 0 s = .next t) ∧
    (∃ (s t : State), s.mode = .interrupt ∧ Sys2Proof.core.run 1 s = .next t) :=
  ⟨⟨_, rfl⟩, ⟨{ bench .normal [] with irq := [0] }, _, rfl, by decide⟩, ⟨waiting, _, rfl, rfl⟩, ⟨waiting, _, rfl, rfl⟩⟩

/-- The registers next to R14 and R15, in both modes. -/
theorem witness_ResetHoldsTheLaunchValues : (13 : Reg) ≠ Reg.sr ∧ (15 : Reg) ≠ Reg.sr ∧
    ¬ (Mode.interrupt = .normal ∧ (15 : Reg) = Reg.pc) ∧ ¬ (Mode.normal = .interrupt ∧ (15 : Reg) = Reg.pc) ∧
    ¬ (Mode.normal = .normal ∧ (13 : Reg) = Reg.pc) := by decide

/-- A launch that places LDI #5 at 0x40, with nonzero draws and both R15 even. -/
def launch : Launch :=
  { Launch.default with
    resetPc := 0x40
    image := [(0x40, 0x05), (0x41, 0x90)]
    draw0 := Vector.replicate 16 0xFFFFFFFE
    draw1 := Vector.replicate 16 0xFFFFFFFE }

theorem witness_LaunchOk : LaunchOk launch := ⟨by decide, by decide, by decide, by decide⟩

theorem witness_StepKeepsTheInvariant :
    (State.boot launch).Inv ∧ (∃ t, step (State.boot launch) = .next t) ∧
    ({ State.boot launch with irq := [0] } : State).Inv ∧ ∃ t, step { State.boot launch with irq := [0] } = .next t :=
  ⟨⟨fun m => by cases m <;> decide, fun m => by cases m <;> decide, by decide⟩, ⟨_, rfl⟩,
    ⟨fun m => by cases m <;> decide, fun m => by cases m <;> decide, by decide⟩, _, rfl⟩

theorem witness_NoFetchSeesAnOddPc : LaunchOk launch ∧ (∃ s, Sys2Proof.core.run 0 (State.boot launch) = .next s) ∧
    ∃ s, Sys2Proof.core.run 1 (State.boot launch) = .next s := ⟨witness_LaunchOk, ⟨_, rfl⟩, _, rfl⟩

theorem witness_StepKeepsMemoryAndParameters :
    (∃ t, step (ready 0x9005) = .next t) ∧ ∃ t, step waiting = .next t := ⟨⟨_, rfl⟩, _, rfl⟩

/-- A register write, a flag writer and a taken branch. -/
theorem witness_InstructionChangesOnlyWhatItNames :
    (∃ t, exec (.add1 1 3 2) (bench .normal []) = .next t) ∧
    (∃ t, exec (.cmp1 1 0) (bench .normal []) = .next t ∧ setsFlags (.cmp1 1 0) = true) ∧
    ∃ t, exec (.bal 1) (bench .normal []) = .next t := ⟨⟨_, rfl⟩, ⟨_, rfl, rfl⟩, _, rfl⟩

/-- The alternative R15 as destination, and no destination at all. -/
theorem witness_OtherInstructionsAdvanceThePc :
    (∃ t, exec (.mov 15 false false .alternative .current 1) (bench .normal []) = .next t ∧
      isBranch (.mov 15 false false .alternative .current 1) = false ∧
      dest (.mov 15 false false .alternative .current 1) ≠ some (.current, Reg.pc)) ∧
    ∃ t, exec (.tst 1 .current 0) (bench .normal []) = .next t ∧ isBranch (.tst 1 .current 0) = false ∧
      dest (.tst 1 .current 0) ≠ some (.current, Reg.pc) :=
  ⟨⟨_, rfl, rfl, by decide⟩, _, rfl, rfl, by decide⟩

theorem witness_AlternativeBankIsNeitherSeenNorWritten : namesAlternative (.add1 15 15 15) = false ∧
    namesAlternative (.mov 15 true true .current .current 15) = false ∧
    namesAlternative (.cmp2 15 .current .current 15) = false := by decide

/-- One stop of each kind: an odd R15, an amount of 32, a reserved word, an undocumented word. -/
theorem witness_StopsOnlyWhereTheSpecStops :
    (∃ f, exec (.add2 15 1) (bench .normal []) = .fault f) ∧
    (∃ f, exec (.lslReg 1 2) (bench .normal [(.normal, 2, 32)]) = .fault f) ∧
    (Instr.reserved101 0xBFFF).WellFormed = true ∧ (∃ f, exec (.reserved101 0xBFFF) State.reset = .fault f) ∧
    (Instr.undocumented 0xC000).WellFormed = true ∧ ∃ r, exec (.undocumented 0xC000) State.reset = .refused r :=
  ⟨⟨_, rfl⟩, ⟨_, rfl⟩, by decide, ⟨_, rfl⟩, by decide, _, rfl⟩

/-- LSL R1, R2 with the largest amount, 31. -/
theorem witness_EveryDocumentedInstructionCompletes : reservedWord 0xA122 = false ∧ 0xA122#16 &&& 0xC000#16 ≠ 0xC000#16 ∧
    EvenWord (ready 0xA122).pc ∧ (∀ b, dest (decodeWord 0xA122) ≠ some (b, Reg.pc)) ∧
    ∀ rs, amountReg (decodeWord 0xA122) = some rs → ((ready 0xA122).readCur rs).toNat ≤ 31 :=
  ⟨by decide, by decide, by decide, fun b => by cases b <;> decide, by decide⟩

/-- Each condition is met by one of these status registers and not met by another. -/
theorem witness_BranchesFollowTheConditionTable :
    EvenWord (bench .normal []).pc ∧
    (∀ k : Cond, k ∈ [Cond.eq, .ne, .cs, .cc, .mi, .pl, .vs, .vc, .hi, .ls, .ge, .lt, .gt, .le] →
      (∃ f : Flags, condHolds k f = true) ∧ ∃ f : Flags, condHolds k f = false) := by
  refine ⟨by decide, fun k hk => ?_⟩
  cases k
  case eq => exact ⟨⟨⟨false, true, false, false⟩, rfl⟩, ⟨false, false, false, false⟩, rfl⟩
  case ne => exact ⟨⟨⟨false, false, false, false⟩, rfl⟩, ⟨false, true, false, false⟩, rfl⟩
  case cs => exact ⟨⟨⟨false, false, true, false⟩, rfl⟩, ⟨false, false, false, false⟩, rfl⟩
  case cc => exact ⟨⟨⟨false, false, false, false⟩, rfl⟩, ⟨false, false, true, false⟩, rfl⟩
  case mi => exact ⟨⟨⟨true, false, false, false⟩, rfl⟩, ⟨false, false, false, false⟩, rfl⟩
  case pl => exact ⟨⟨⟨false, false, false, false⟩, rfl⟩, ⟨true, false, false, false⟩, rfl⟩
  case vs => exact ⟨⟨⟨false, false, false, true⟩, rfl⟩, ⟨false, false, false, false⟩, rfl⟩
  case vc => exact ⟨⟨⟨false, false, false, false⟩, rfl⟩, ⟨false, false, false, true⟩, rfl⟩
  case hi => exact ⟨⟨⟨false, false, true, false⟩, rfl⟩, ⟨false, true, true, false⟩, rfl⟩
  case ls => exact ⟨⟨⟨false, true, true, false⟩, rfl⟩, ⟨false, false, true, false⟩, rfl⟩
  case ge => exact ⟨⟨⟨true, false, false, true⟩, rfl⟩, ⟨true, false, false, false⟩, rfl⟩
  case lt => exact ⟨⟨⟨true, false, false, false⟩, rfl⟩, ⟨true, false, false, true⟩, rfl⟩
  case gt => exact ⟨⟨⟨true, false, false, true⟩, rfl⟩, ⟨true, true, false, true⟩, rfl⟩
  case le => exact ⟨⟨⟨true, true, false, true⟩, rfl⟩, ⟨true, false, false, true⟩, rfl⟩
  case al => exact absurd hk (by decide)

theorem witness_ConditionsAfterAComparison : (bench .normal []).params.cmpCCompare = .unsigned ∧
    (∃ t, exec (.cmp2 1 .alternative .current 2) (bench .normal []) = .next t) ∧
    ∃ t, exec (.cmp1 1 0x80) (bench .normal []) = .next t := ⟨rfl, ⟨_, rfl⟩, _, rfl⟩

/-- A parameter of each value, for the four arithmetic statements. -/
theorem witness_ArithmeticParameters : (bench .normal []).params.addSubImmExt = .zero ∧
    ({ bench .normal [] with params := { Params.default with addSubImmExt := .sign } } : State).params.addSubImmExt =
      .sign := by decide

/-- Each case of `WritesResult`: an even and an odd value for R15, R14, and a plain register. -/
theorem witness_WritesResult : EvenWord 0xFFFFFFFE ∧ ¬ EvenWord 0xFFFFFFFF ∧ Reg.sr ≠ Reg.pc ∧ (13 : Reg) ≠ Reg.pc ∧
    (13 : Reg) ≠ Reg.sr := by decide

theorem witness_ComparisonFlagsAreThoseOfTheDifference : (1 : Reg) ≠ Reg.sr ∧ (1 : Reg) ≠ Reg.pc ∧
    (∃ t, exec (.cmp2 1 .current .current 1) (bench .normal []) = .next t) ∧
    ∃ u, exec (.sub1 1 0 1) (bench .normal []) = .next u := ⟨by decide, by decide, ⟨_, rfl⟩, _, rfl⟩

theorem witness_ShiftByRegister : ((bench .normal [(.normal, 2, 31)]).readCur 2).toNat ≤ 31 ∧
    ((bench .normal [(.normal, 2, 0)]).readCur 2).toNat ≤ 31 := by decide

theorem witness_ShiftAmountAbove31Faults : 31 < ((bench .normal [(.normal, 2, 32)]).readCur 2).toNat ∧
    31 < ((bench .normal [(.normal, 2, 0xFFFFFFFF)]).readCur 2).toNat := by decide

theorem witness_ShiftFunctionBitByBit : (0 : Nat) ≤ 31 ∧ (31 : Nat) ≤ 31 := by decide

theorem witness_RotatesAreInverse : (31 : Nat) ≤ 31 ∧ (1 : Nat) ≤ 31 ∧ (1 : Nat) ≤ 1 := by decide

/-- The highest word of each row. -/
theorem witness_ReservedWordsFault : 0x1FFF#16 &&& 0xFE00#16 = 0x1E00#16 ∧ 0x7FFF#16 &&& 0xF040#16 = 0x7040#16 ∧
    0xBFDF#16 &&& 0xF060#16 = 0xB040#16 ∧ 0xBFEF#16 &&& 0xF070#16 = 0xB060#16 ∧
    0xBFFF#16 &&& 0xE030#16 = 0xA030#16 := by decide

theorem witness_UndocumentedWordsAreRefused :
    0xC000#16 &&& 0xC000#16 = 0xC000#16 ∧ 0xBFFF#16 &&& 0xC000#16 ≠ 0xC000#16 := by decide

theorem witness_RegistersReadAsStored : (13 : Reg) ≠ Reg.sr ∧ (0 : Nat) < 1 ∧ State.reset.params.asrIRead = .bank ∧
    ({ State.reset with params := { Params.default with asrIRead := .mode } } : State).params.asrIRead = .mode := by
  decide

/-- An odd value into the current and into the alternative status register. -/
theorem witness_StatusBit0IsReadOnly :
    (dest (.mov 14 false false .alternative .current 1) = some (.alternative, Reg.sr) ∧
      ∃ t, exec (.mov 14 false false .alternative .current 1) (bench .normal [(.normal, 1, 0xFFFFFFFF)]) = .next t) ∧
    dest (.add2 14 1) = some (.current, Reg.sr) ∧ ∃ t, exec (.add2 14 1) (bench .normal []) = .next t :=
  ⟨⟨rfl, _, rfl⟩, rfl, _, rfl⟩

end Sys2Proof.Tests
end

/-! PROOF. The rows of the opcode map that formats CMP2, TST, MOV and LDI select, the boxes of their words, and O4. -/

namespace Sys2Proof.Machine

open Sys2Proof

/-! ### Which row a word selects -/

/-- The top four bits are the opcode (bits 15:13) and bit 12, which decoding reads apart (R83). -/
theorem opcode_and_bit12_of_top {w : Half} {x : BitVec 4} (h : field w 12 4 = x) :
    field w 13 3 = x.extractLsb' 1 3 ∧ w.getLsbD 12 = x.getLsbD 0 := by
  subst h
  constructor
  · apply BitVec.eq_of_getLsbD_eq
    intro k hk
    simp [field, hk, show 1 + k < 4 by omega, show 12 + (1 + k) = 13 + k by omega]
  · simp [field]

/-- 0111 on top: `decodeCompare` past CMP(1) (R83, R86). -/
theorem decodeWord_of_top_0111 {w : Half} (h : field w 12 4 = 0b0111#4) :
    decodeWord w =
      if w.getLsbD 6 then .reserved0111 w
      else if w.getLsbD 7 then .tst (regField w 8) (selField w 5) (field w 0 5)
      else .cmp2 (regField w 8) (selField w 5) (selField w 4) (regField w 0) := by
  obtain ⟨hop, h12⟩ := opcode_and_bit12_of_top h
  simp only [decodeWord, decodeCompare, hop, h12]
  rfl

theorem decodeWord_of_top_1000 {w : Half} (h : field w 12 4 = 0b1000#4) :
    decodeWord w =
      .mov (regField w 8) (w.getLsbD 7) (w.getLsbD 6) (selField w 5) (selField w 4) (regField w 0) := by
  obtain ⟨hop, h12⟩ := opcode_and_bit12_of_top h
  simp only [decodeWord, hop, h12]
  rfl

theorem decodeWord_of_top_1001 {w : Half} (h : field w 12 4 = 0b1001#4) : decodeWord w = .ldi (field w 0 12) := by
  obtain ⟨hop, h12⟩ := opcode_and_bit12_of_top h
  simp only [decodeWord, hop, h12]
  rfl

/-! ### Operands -/

/-- The bank a selector bit names: 1 the alternative one (R24). -/
def selOfBit (b : Bool) : BankSel := if b then .alternative else .current

theorem selField_eq_selOfBit (w : Half) (k : Nat) : selField w k = selOfBit (w.getLsbD k) := rfl

/-- TST's mask has the one bit whose number the immediate is (R132). -/
theorem toNat_bitMask (imm : BitVec 5) : (bitMask imm).toNat = 2 ^ imm.toNat := by
  rw [bitMask, ← BitVec.twoPow_eq, BitVec.toNat_twoPow_of_lt imm.isLt]

/-- Widening a signed immediate keeps its value (R82). -/
theorem toInt_signedImm {n : Nat} (hn : n ≤ 32) (imm : BitVec n) : (signedImm imm).toInt = imm.toInt :=
  BitVec.toInt_signExtend_of_le hn

/-! ### The formats -/

/-- A word of format MOV or CMP2 (R76, R78): two registers, bits 7 and 6, and their two selector bits. -/
def twoRegWord (top : BitVec 4) (ra : Reg) (p q x y : Bool) (rb : Reg) : Half :=
  (top ++ regBits ra ++ BitVec.ofBool p ++ BitVec.ofBool q ++ BitVec.ofBool x ++ BitVec.ofBool y ++ regBits rb :
    BitVec (4 + 4 + 1 + 1 + 1 + 1 + 4))

theorem top_twoRegWord (top : BitVec 4) (ra : Reg) (p q x y : Bool) (rb : Reg) :
    field (twoRegWord top ra p q x y rb) 12 4 = top := by
  simp (disch := omega) only [field, twoRegWord, BitVec.extractLsb'_append_eq_of_le]
  simp

theorem regs_twoRegWord (top : BitVec 4) (ra : Reg) (p q x y : Bool) (rb : Reg) :
    regField (twoRegWord top ra p q x y rb) 8 = ra ∧ regField (twoRegWord top ra p q x y rb) 0 = rb := by
  simp (disch := omega) only [regField, field, twoRegWord, regBits, BitVec.extractLsb'_append_eq_of_le,
    BitVec.extractLsb'_append_eq_of_add_le]
  simp

theorem bits_twoRegWord (top : BitVec 4) (ra : Reg) (p q x y : Bool) (rb : Reg) :
    let w := twoRegWord top ra p q x y rb
    w.getLsbD 7 = p ∧ w.getLsbD 6 = q ∧ w.getLsbD 5 = x ∧ w.getLsbD 4 = y := by
  simp only [twoRegWord, BitVec.getLsbD_append]
  simp

/-- Format CMP2 (R76). -/
theorem decodeWord_cmp2_format (ra rb : Reg) (x y : Bool) :
    decodeWord (twoRegWord 0b0111#4 ra false false x y rb) = .cmp2 ra (selOfBit x) (selOfBit y) rb := by
  obtain ⟨hra, hrb⟩ := regs_twoRegWord 0b0111#4 ra false false x y rb
  obtain ⟨h7, h6, h5, h4⟩ := bits_twoRegWord 0b0111#4 ra false false x y rb
  rw [decodeWord_of_top_0111 (top_twoRegWord _ _ _ _ _ _ _), h6, h7, hra, hrb, selField_eq_selOfBit,
    selField_eq_selOfBit, h5, h4]
  simp

/-- Format MOV (R78). -/
theorem decodeWord_mov_format (ra rb : Reg) (optB optW x y : Bool) :
    decodeWord (twoRegWord 0b1000#4 ra optB optW x y rb) = .mov ra optB optW (selOfBit x) (selOfBit y) rb := by
  obtain ⟨hra, hrb⟩ := regs_twoRegWord 0b1000#4 ra optB optW x y rb
  obtain ⟨h7, h6, h5, h4⟩ := bits_twoRegWord 0b1000#4 ra optB optW x y rb
  rw [decodeWord_of_top_1000 (top_twoRegWord _ _ _ _ _ _ _), h7, h6, hra, hrb, selField_eq_selOfBit,
    selField_eq_selOfBit, h5, h4]

/-- Format TST (R77). -/
theorem decodeWord_tst_format (ra : Reg) (x : Bool) (imm : BitVec 5) :
    decodeWord (0b0111#4 ++ BitVec.ofFin (w := 4) ra ++ 0b1#1 ++ 0b0#1 ++ BitVec.ofBool x ++ imm) =
      .tst ra (selOfBit x) imm := by
  rw [decodeWord_of_top_0111]
  · simp (disch := omega) only [regField, field, selField_eq_selOfBit, BitVec.getLsbD_append,
      BitVec.extractLsb'_append_eq_of_le, BitVec.extractLsb'_append_eq_of_add_le]
    simp
  · simp (disch := omega) only [field, BitVec.extractLsb'_append_eq_of_le]
    simp

/-- Format LDI (R79): all but the top four bits are the immediate. -/
theorem decodeWord_ldi_format (imm : BitVec 12) : decodeWord (0b1001#4 ++ imm) = .ldi imm := by
  rw [decodeWord_of_top_1001 BitVec.extractLsb'_append_eq_left, field]
  exact congrArg Instr.ldi BitVec.extractLsb'_append_eq_right

/-- Settles O4: one lemma per format, the two senses of a selector bit, and the values of the two immediates. -/
theorem compareAndMoveFormats : Obligations.CompareAndMoveFormats := by
  intro ra rb x y optB optW imm5 imm12
  exact ⟨decodeWord_cmp2_format ra rb x y, decodeWord_tst_format ra x imm5,
    decodeWord_mov_format ra rb optB optW x y, decodeWord_ldi_format imm12,
    fun _ _ => ⟨rfl, rfl⟩, toNat_bitMask imm5, toInt_signedImm (by decide) imm12⟩

end Sys2Proof.Machine

/-! PROOF. Reads and writes of the registers with no special case (R10, R11), and O39 about R13, one of them. -/

namespace Sys2Proof.Machine

open Sys2Proof

/-- Every register but R14 reads as stored, in either bank (R10). -/
theorem readSel_of_ne_sr (s : State) (b : BankSel) {r : Reg} (hr : r ≠ Reg.sr) :
    s.readSel b r = s.reg (s.selMode b) r := by
  cases b with
  | current => exact if_neg hr
  | alternative => exact if_neg hr

/-- A write to R0 to R13 of either bank always completes and stores the value as it is (R11). -/
theorem writeSel_storesOnly (s : State) (b : BankSel) {r : Reg} (hpc : r ≠ Reg.pc) (hsr : r ≠ Reg.sr) (v : Word) :
    ∃ t, s.writeSel b r v = .next t ∧ StoresOnly s t (s.selMode b) r v := by
  have h := writeSel_writesResult s b r v
  rwa [WritesResult.eq_def, if_neg hpc, if_neg hsr] at h

/-- LDI is a write of its widened immediate to R13 of the current bank (R25, R141). -/
theorem exec_ldi (imm : BitVec 12) (s : State) :
    exec (.ldi imm) s = s.writeSel .current Reg.ir (imm.signExtend 32) := rfl

/-- Settles O39: R13 is neither R14 nor R15, so the rules for ordinary registers give its reads and writes, LDI's
included. -/
theorem ldiWritesTheImmediateRegister : Obligations.LdiWritesTheImmediateRegister := by
  have hpc : Reg.ir ≠ Reg.pc := by decide
  have hsr : Reg.ir ≠ Reg.sr := by decide
  refine ⟨fun s imm => ?_, decodeWord_ldi_format, fun s b => readSel_of_ne_sr s b hsr,
    fun s b v => writeSel_storesOnly s b hpc hsr v⟩
  rw [exec_ldi]
  exact writeSel_storesOnly s .current hpc hsr _

end Sys2Proof.Machine

/-! PROOF. Format B: the boxes of its word, the row each cond names, the offset in bytes, and O2. -/

namespace Sys2Proof.Machine

open Sys2Proof

/-- The rows of opcode 000 in the order of their cond, 1111 the reserved one (R85, R94, R100). -/
def branchRows : Vector (BitVec 9 → Instr) 16 :=
  #v[.beq, .bne, .bcs, .bcc, .bmi, .bpl, .bvs, .bvc, .bhi, .bls, .bge, .blt, .bgt, .ble, .bal, .bnv]

theorem fields_encodeB (cond : BitVec 4) (off : BitVec 9) :
    field (encodeB cond off) 13 3 = 0b000#3 ∧ field (encodeB cond off) 9 4 = cond ∧
    field (encodeB cond off) 0 9 = off := by
  refine ⟨List.mem_singleton.1 (Laws.OpcodeField.field_encodeB cond off), ?_, ?_⟩
  · simp (disch := omega) only [field, encodeB, BitVec.extractLsb'_append_eq_of_le,
      BitVec.extractLsb'_append_eq_of_add_le]
    simp
  · exact BitVec.extractLsb'_append_eq_right

/-- A branch row is chosen by the cond field alone and carries the offset field. -/
theorem decodeBranch_eq_branchRows {w : Half} {cond : BitVec 4} {off : BitVec 9} (hcond : field w 9 4 = cond)
    (hoff : field w 0 9 = off) : decodeBranch w = branchRows[cond.toNat] off := by
  obtain ⟨c, hc⟩ := cond
  simp only [decodeBranch, hcond, hoff]
  interval_cases c <;> rfl

/-- Format B (R73). -/
theorem decodeWord_branch_format (cond : BitVec 4) (off : BitVec 9) :
    decodeWord (encodeB cond off) = branchRows[cond.toNat] off := by
  obtain ⟨hop, hcond, hoff⟩ := fields_encodeB cond off
  rw [decodeWord, hop]
  exact decodeBranch_eq_branchRows hcond hoff

/-- The offset counts halfwords (R82, R101): a doubled 9-bit value is far from overflowing 32 bits. -/
theorem toInt_branchOffset (off : BitVec 9) : (branchOffset off).toInt = 2 * off.toInt := by
  have hwide : (off.signExtend 32).toInt = off.toInt := toInt_signedImm (by decide) off
  have hlo : -2 ^ 8 ≤ off.toInt := BitVec.le_toInt off
  have hhi : off.toInt < 2 ^ 8 := BitVec.toInt_lt
  rw [branchOffset, BitVec.shiftLeft_eq_mul_twoPow, BitVec.toInt_mul, hwide, Int.mul_comm]
  exact Int.bmod_eq_of_le (by change _ ≤ 2 * _; omega) (by change 2 * _ < _; omega)

/-- Settles O2: one lemma over the cond field, at each of its sixteen values, and the offset's value. -/
theorem branchFormat : Obligations.BranchFormat := by
  intro off
  have row (cond : BitVec 4) := decodeWord_branch_format cond off
  exact ⟨row 0, row 1, row 2, row 3, row 4, row 5, row 6, row 7, row 8, row 9, row 10, row 11, row 12, row 13,
    row 14, row 15, toInt_branchOffset off⟩

end Sys2Proof.Machine

/-! PROOF. Formats RRI4 and RI8: the boxes of their words, the rows they select, and O3. -/

namespace Sys2Proof.Machine

open Sys2Proof

/-- A word of format RRI4 (R74); `top` is the opcode and bit 12. -/
def rri4Word (top : BitVec 4) (ra : Reg) (imm : BitVec 4) (rb : Reg) : Half :=
  (top ++ regBits ra ++ imm ++ regBits rb : BitVec (4 + 4 + 4 + 4))

/-- A word of format RI8 (R75); `top` is the opcode and bit 12. -/
def ri8Word (top : BitVec 4) (ra : Reg) (imm : BitVec 8) : Half :=
  (top ++ regBits ra ++ imm : BitVec (4 + 4 + 8))

theorem top_rri4Word (top : BitVec 4) (ra : Reg) (imm : BitVec 4) (rb : Reg) :
    field (rri4Word top ra imm rb) 12 4 = top := by
  simp (disch := omega) only [field, rri4Word, BitVec.extractLsb'_append_eq_of_le]
  simp

theorem top_ri8Word (top : BitVec 4) (ra : Reg) (imm : BitVec 8) : field (ri8Word top ra imm) 12 4 = top := by
  simp (disch := omega) only [field, ri8Word, BitVec.extractLsb'_append_eq_of_le]
  simp

theorem operands_rri4Word (top : BitVec 4) (ra : Reg) (imm : BitVec 4) (rb : Reg) :
    regField (rri4Word top ra imm rb) 8 = ra ∧ field (rri4Word top ra imm rb) 4 4 = imm ∧
    regField (rri4Word top ra imm rb) 0 = rb := by
  simp (disch := omega) only [regField, field, rri4Word, regBits, BitVec.extractLsb'_append_eq_of_le,
    BitVec.extractLsb'_append_eq_of_add_le]
  simp

theorem operands_ri8Word (top : BitVec 4) (ra : Reg) (imm : BitVec 8) :
    regField (ri8Word top ra imm) 8 = ra ∧ field (ri8Word top ra imm) 0 8 = imm := by
  simp (disch := omega) only [regField, field, ri8Word, regBits, BitVec.extractLsb'_append_eq_of_le,
    BitVec.extractLsb'_append_eq_of_add_le]
  simp

/-- Format RRI4 (R74): the opcode tells its two rows apart. -/
theorem decodeWord_rri4_format (ra : Reg) (imm : BitVec 4) (rb : Reg) :
    decodeWord (rri4Word 0b0010#4 ra imm rb) = .add1 ra imm rb ∧
    decodeWord (rri4Word 0b0100#4 ra imm rb) = .sub1 ra imm rb := by
  have select (top : BitVec 4) := opcode_and_bit12_of_top (top_rri4Word top ra imm rb)
  constructor <;>
  · simp only [decodeWord, select, operands_rri4Word]
    rfl

/-- Format RI8 (R75): the opcode tells its three rows apart. -/
theorem decodeWord_ri8_format (ra : Reg) (imm : BitVec 8) :
    decodeWord (ri8Word 0b0011#4 ra imm) = .add2 ra imm ∧ decodeWord (ri8Word 0b0101#4 ra imm) = .sub2 ra imm ∧
    decodeWord (ri8Word 0b0110#4 ra imm) = .cmp1 ra imm := by
  have select (top : BitVec 4) := opcode_and_bit12_of_top (top_ri8Word top ra imm)
  refine ⟨?_, ?_, ?_⟩ <;>
  · simp only [decodeWord, decodeCompare, select, operands_ri8Word]
    rfl

/-- Settles O3: the rows of the two formats, in the statement's order. -/
theorem arithmeticFormats : Obligations.ArithmeticFormats := by
  intro ra rb imm4 imm8
  obtain ⟨hadd1, hsub1⟩ := decodeWord_rri4_format ra imm4 rb
  obtain ⟨hadd2, hsub2, hcmp1⟩ := decodeWord_ri8_format ra imm8
  exact ⟨hadd1, hsub1, hadd2, hsub2, hcmp1⟩

end Sys2Proof.Machine

/-! PROOF. The words of CMP(2) and MOV, box by box, and O49. -/

namespace Sys2Proof.Machine

open Sys2Proof

/-- A selector's bit says whether it names the alternative bank (R24). -/
theorem selBit_eq_ofBool (b : BankSel) : selBit b = BitVec.ofBool (decide (b = .alternative)) := by
  cases b <;> rfl

/-- CMP(2)'s word has the boxes of MOV's, with both option bits 0 (R76). -/
theorem encode_cmp2_eq_twoRegWord (rn rx : Reg) (bn bx : BankSel) :
    encode (.cmp2 rn bn bx rx) =
      twoRegWord 0b0111#4 rn false false (decide (bn = .alternative)) (decide (bx = .alternative)) rx := by
  have hfixed (x : BitVec 8) : (x ++ 0b00#2 : BitVec (8 + 2)) = x ++ BitVec.ofBool false ++ BitVec.ofBool false :=
    (BitVec.append_assoc (x₁ := x) (x₂ := BitVec.ofBool false) (x₃ := BitVec.ofBool false)).symm
  rw [encode, hfixed, selBit_eq_ofBool, selBit_eq_ofBool]
  rfl

theorem encode_mov_eq_twoRegWord (rd rs : Reg) (optB optW : Bool) (bd bs : BankSel) :
    encode (.mov rd optB optW bd bs rs) =
      twoRegWord 0b1000#4 rd optB optW (decide (bd = .alternative)) (decide (bs = .alternative)) rs := by
  rw [encode, selBit_eq_ofBool, selBit_eq_ofBool]
  rfl

/-- The boxes of a word of format CMP2 or MOV whose selector bits encode two bank selectors (R24, R76, R78). -/
theorem boxes_twoRegWord (top : BitVec 4) (ra rb : Reg) (p q : Bool) (ba bb : BankSel) :
    let w := twoRegWord top ra p q (decide (ba = .alternative)) (decide (bb = .alternative)) rb
    field w 12 4 = top ∧ regField w 8 = ra ∧ w.getLsbD 7 = p ∧ w.getLsbD 6 = q ∧
    (w.getLsbD 5 = true ↔ ba = .alternative) ∧ (w.getLsbD 4 = true ↔ bb = .alternative) ∧ regField w 0 = rb := by
  intro w
  obtain ⟨hra, hrb⟩ : regField w 8 = ra ∧ regField w 0 = rb := regs_twoRegWord ..
  obtain ⟨h7, h6, h5, h4⟩ := bits_twoRegWord top ra p q (decide (ba = .alternative)) (decide (bb = .alternative)) rb
  exact ⟨top_twoRegWord .., hra, h7, h6, h5 ▸ decide_eq_true_iff, h4 ▸ decide_eq_true_iff, hrb⟩

/-- Settles O49: both words are of one shape, whose boxes are known; the reads are the two senses of a selector. -/
theorem selectorFormEncodings : Obligations.SelectorFormEncodings := by
  refine ⟨fun rn rx bn bx => ?_, fun rd rs optB optW bd bs => ?_, fun _ _ => ⟨rfl, rfl⟩⟩
  · rw [encode_cmp2_eq_twoRegWord]
    exact boxes_twoRegWord 0b0111#4 rn rx false false bn bx
  · rw [encode_mov_eq_twoRegWord]
    exact boxes_twoRegWord 0b1000#4 rd rs optB optW bd bs

end Sys2Proof.Machine

/-! PROOF. The boxes of format LSH2, the instructions whose words it holds, and O50. -/

namespace Sys2Proof.Machine

open Sys2Proof

theorem regs_encodeLsh2 (a d r : Bool) (rd rs : Reg) :
    regField (encodeLsh2 a d r rd rs) 8 = rd ∧ regField (encodeLsh2 a d r rd rs) 0 = rs := by
  simp (disch := omega) only [regField, field, encodeLsh2, regBits, BitVec.extractLsb'_append_eq_of_le,
    BitVec.extractLsb'_append_eq_of_add_le]
  simp

/-- The option bits A, D, R and the fixed bits 5:4 of format LSH2 (R81). -/
theorem bits_encodeLsh2 (a d r : Bool) (rd rs : Reg) :
    let w := encodeLsh2 a d r rd rs
    w.getLsbD 12 = a ∧ w.getLsbD 7 = d ∧ w.getLsbD 6 = r ∧ w.getLsbD 5 = true ∧ w.getLsbD 4 = false := by
  simp only [encodeLsh2, BitVec.getLsbD_append]
  simp

/-- Bit 5 is the one that tells format LSH1 from LSH2 (R80, R81). -/
theorem bit5_encodeLsh1 (a d r : Bool) (rd : Reg) (imm : BitVec 5) : (encodeLsh1 a d r rd imm).getLsbD 5 = false := by
  simp only [encodeLsh1, BitVec.getLsbD_append]
  simp

/-- The instructions with an amount register are the six LSH(2) rows, which write the current bank (R96, R152). -/
theorem encodeLsh2_of_amountReg {i : Instr} {rs : Reg} (h : amountReg i = some rs) :
    ∃ a d r rd, dest i = some (.current, rd) ∧ encode i = encodeLsh2 a d r rd rs := by
  cases i with
  | lslReg rd rs' => cases h; exact ⟨false, false, false, rd, rfl, rfl⟩
  | lsrReg rd rs' => cases h; exact ⟨false, true, false, rd, rfl, rfl⟩
  | aslReg rd rs' => cases h; exact ⟨true, false, false, rd, rfl, rfl⟩
  | asrReg rd rs' => cases h; exact ⟨true, true, false, rd, rfl, rfl⟩
  | rolReg rd rs' => cases h; exact ⟨false, false, true, rd, rfl, rfl⟩
  | rorReg rd rs' => cases h; exact ⟨false, true, true, rd, rfl, rfl⟩
  | _ => cases h

/-- Settles O50: the boxes of the format, the rows that have an amount register, and bit 5 of the other format. -/
theorem registerShiftEncodings : Obligations.RegisterShiftEncodings := by
  refine ⟨fun a d r rd rs => ?_, fun i b rd rs hdest hamount => ?_, bit5_encodeLsh1⟩
  · obtain ⟨hrd, hrs⟩ := regs_encodeLsh2 a d r rd rs
    obtain ⟨h12, h7, h6, h5, h4⟩ := bits_encodeLsh2 a d r rd rs
    have hop := List.mem_singleton.1 (Laws.OpcodeField.field_encodeLsh2 a d r rd rs)
    exact ⟨hop, h12, hrd, h7, h6, h5, h4, hrs⟩
  · obtain ⟨a, d, r, rd', hdest', hword⟩ := encodeLsh2_of_amountReg hamount
    obtain ⟨-, rfl⟩ : BankSel.current = b ∧ rd' = rd := by simpa [hdest'] using hdest
    exact ⟨a, d, r, hword⟩

end Sys2Proof.Machine

/-! PROOF. A word is determined by its boxes, and which boxes a masked word fixes. -/

namespace Sys2Proof.Machine

open Sys2Proof

/-- A fixed two-bit box is two fixed one-bit boxes. -/
theorem append_10 {n : Nat} (x : BitVec n) : (x ++ 0b10#2 : BitVec (n + 2)) = x ++ 0b1#1 ++ 0b0#1 :=
  (BitVec.append_assoc (x₁ := x) (x₂ := 0b1#1) (x₃ := 0b0#1)).symm

/-- Two neighbouring fields of one word are one field. -/
theorem field_append_field (w : Half) {hi m lo n : Nat} (h : hi = lo + n) :
    field w hi m ++ field w lo n = field w lo (m + n) := by
  subst h
  apply BitVec.eq_of_getLsbD_eq
  intro k hk
  simp only [field, BitVec.getLsbD_append, BitVec.getLsbD_extractLsb']
  by_cases hkn : k < n
  · simp [hkn, hk]
  · simp [hkn, show k - n < m by omega, hk, show lo + n + (k - n) = lo + k by omega]

theorem field_whole (w : Half) : field w 0 16 = w := BitVec.extractLsb'_eq_self

theorem field_eq_iff (w : Half) (lo n : Nat) (x : BitVec n) :
    field w lo n = x ↔ ∀ k < n, w.getLsbD (lo + k) = x.getLsbD k := by
  constructor
  · rintro rfl k hk
    simp [field, hk]
  · intro h
    apply BitVec.eq_of_getLsbD_eq
    intro k hk
    simp [field, hk, h k hk]

theorem ofBool_getLsbD (w : Half) (k : Nat) : BitVec.ofBool (w.getLsbD k) = field w k 1 := by
  refine ((field_eq_iff w k 1 _).2 fun j hj => ?_).symm
  obtain rfl : j = 0 := by omega
  simp

theorem selBit_selField (w : Half) (k : Nat) : selBit (selField w k) = field w k 1 := by
  rw [← ofBool_getLsbD, selField]
  cases w.getLsbD k <;> rfl

/-- A masked word is known when the word's bits under the mask are. -/
theorem masked_iff {w m v : Half} (hv : v &&& m = v) :
    w &&& m = v ↔ ∀ k < 16, m.getLsbD k = true → w.getLsbD k = v.getLsbD k := by
  constructor
  · intro h k _ hk
    exact Laws.OpcodeField.bit_of_masked h k hk
  · intro h
    rw [← hv]
    apply BitVec.eq_of_getLsbD_eq
    intro k hk
    rw [BitVec.getLsbD_and, BitVec.getLsbD_and]
    cases hm : m.getLsbD k with
    | false => simp
    | true => rw [h k hk hm]

/-- The words of the BNV row (R85). -/
theorem masked_bnv_iff (w : Half) :
    w &&& 0xFE00#16 = 0x1E00#16 ↔ field w 13 3 = 0b000#3 ∧ field w 9 4 = 0b1111#4 := by
  rw [masked_iff (by decide), field_eq_iff, field_eq_iff]
  simp only [Nat.forall_lt_succ_right]
  simp
  tauto

/-- The unallocated words of 0111 (R86). -/
theorem masked_0111_iff (w : Half) :
    w &&& 0xF040#16 = 0x7040#16 ↔ field w 12 4 = 0b0111#4 ∧ w.getLsbD 6 = true := by
  rw [masked_iff (by decide), field_eq_iff]
  simp only [Nat.forall_lt_succ_right]
  simp
  tauto

/-- The reserved words of format LSH1 (R87). -/
theorem masked_lsh1_iff (w : Half) :
    w &&& 0xF060#16 = 0xB040#16 ↔
      field w 13 3 = 0b101#3 ∧ w.getLsbD 12 = true ∧ w.getLsbD 6 = true ∧ w.getLsbD 5 = false := by
  rw [masked_iff (by decide), field_eq_iff]
  simp only [Nat.forall_lt_succ_right]
  simp
  tauto

/-- The reserved words of format LSH2 (R87). -/
theorem masked_lsh2_iff (w : Half) :
    w &&& 0xF070#16 = 0xB060#16 ↔
      field w 13 3 = 0b101#3 ∧ w.getLsbD 12 = true ∧ w.getLsbD 6 = true ∧ w.getLsbD 5 = true ∧
        w.getLsbD 4 = false := by
  rw [masked_iff (by decide), field_eq_iff]
  simp only [Nat.forall_lt_succ_right]
  simp
  tauto

/-- The unallocated words of opcode 101 (R88). -/
theorem masked_101_iff (w : Half) :
    w &&& 0xE030#16 = 0xA030#16 ↔ field w 13 3 = 0b101#3 ∧ field w 4 2 = 0b11#2 := by
  rw [masked_iff (by decide), field_eq_iff, field_eq_iff]
  simp only [Nat.forall_lt_succ_right]
  simp
  tauto

/-- The undocumented words (R89). -/
theorem masked_undocumented_iff (w : Half) :
    w &&& 0xC000#16 = 0xC000#16 ↔ field w 13 3 = 0b110#3 ∨ field w 13 3 = 0b111#3 := by
  rw [masked_iff (by decide), field_eq_iff, field_eq_iff]
  simp only [Nat.forall_lt_succ_right]
  simp
  cases w[13] <;> simp

end Sys2Proof.Machine

/-! PROOF. Formats LSH1 and LSH2: the row A, D, R and bits 5:4 name, the boxes of LSH1's word, and O5. -/

namespace Sys2Proof.Machine

open Sys2Proof

/-- The row of format LSH1 that A, D, R name (R80, R87, R96). -/
def lsh1Row : Bool → Bool → Bool → Reg → BitVec 5 → Instr
  | false, false, false => .lslImm
  | false, true, false => .lsrImm
  | true, false, false => .aslImm
  | true, true, false => .asrImm
  | false, false, true => .rolImm
  | false, true, true => .rorImm
  | true, d, true => fun rd imm => .lsh1Reserved rd d imm

/-- The row of format LSH2 that A, D, R name (R81, R87, R96). -/
def lsh2Row : Bool → Bool → Bool → Reg → Reg → Instr
  | false, false, false => .lslReg
  | false, true, false => .lsrReg
  | true, false, false => .aslReg
  | true, true, false => .asrReg
  | false, false, true => .rolReg
  | false, true, true => .rorReg
  | true, d, true => fun rd rs => .lsh2Reserved rd d rs

/-- A = R = 1 is reserved whatever D is (R87). -/
theorem reserved_rows (d : Bool) (rd rs : Reg) (imm : BitVec 5) :
    lsh1Row true d true rd imm = .lsh1Reserved rd d imm ∧ lsh2Row true d true rd rs = .lsh2Reserved rd d rs := by
  cases d <;> exact ⟨rfl, rfl⟩

/-- Decoding an opcode-101 word: bits 5:4 choose the format, A, D, R the row. -/
theorem decodeShift_eq (w : Half) :
    decodeShift w =
      if w.getLsbD 5 then
        if w.getLsbD 4 then .reserved101 w
        else lsh2Row (w.getLsbD 12) (w.getLsbD 7) (w.getLsbD 6) (regField w 8) (regField w 0)
      else lsh1Row (w.getLsbD 12) (w.getLsbD 7) (w.getLsbD 6) (regField w 8) (field w 0 5) := by
  unfold decodeShift
  generalize w.getLsbD 12 = a, w.getLsbD 7 = d, w.getLsbD 6 = r
  cases a <;> cases d <;> cases r <;> rfl

theorem decodeWord_of_opcode_101 {w : Half} (h : field w 13 3 = 0b101#3) : decodeWord w = decodeShift w := by
  rw [decodeWord, h]
  rfl

theorem operands_encodeLsh1 (a d r : Bool) (rd : Reg) (imm : BitVec 5) :
    regField (encodeLsh1 a d r rd imm) 8 = rd ∧ field (encodeLsh1 a d r rd imm) 0 5 = imm := by
  simp (disch := omega) only [regField, field, encodeLsh1, regBits, BitVec.extractLsb'_append_eq_of_le,
    BitVec.extractLsb'_append_eq_of_add_le]
  simp

/-- The option bits A, D, R of format LSH1 (R80). -/
theorem bits_encodeLsh1 (a d r : Bool) (rd : Reg) (imm : BitVec 5) :
    let w := encodeLsh1 a d r rd imm
    w.getLsbD 12 = a ∧ w.getLsbD 7 = d ∧ w.getLsbD 6 = r := by
  simp only [encodeLsh1, BitVec.getLsbD_append]
  simp

/-- Format LSH1 (R80). -/
theorem decodeWord_lsh1_format (a d r : Bool) (rd : Reg) (imm : BitVec 5) :
    decodeWord (encodeLsh1 a d r rd imm) = lsh1Row a d r rd imm := by
  have hop := List.mem_singleton.1 (Laws.OpcodeField.field_encodeLsh1 a d r rd imm)
  obtain ⟨hrd, himm⟩ := operands_encodeLsh1 a d r rd imm
  obtain ⟨h12, h7, h6⟩ := bits_encodeLsh1 a d r rd imm
  rw [decodeWord_of_opcode_101 hop, decodeShift_eq, bit5_encodeLsh1, h12, h7, h6, hrd, himm]
  rfl

/-- Format LSH2 (R81). -/
theorem decodeWord_lsh2_format (a d r : Bool) (rd rs : Reg) :
    decodeWord (encodeLsh2 a d r rd rs) = lsh2Row a d r rd rs := by
  have hop := List.mem_singleton.1 (Laws.OpcodeField.field_encodeLsh2 a d r rd rs)
  obtain ⟨hrd, hrs⟩ := regs_encodeLsh2 a d r rd rs
  obtain ⟨h12, h7, h6, h5, h4⟩ := bits_encodeLsh2 a d r rd rs
  rw [decodeWord_of_opcode_101 hop, decodeShift_eq, h5, h4, h12, h7, h6, hrd, hrs]
  rfl

/-- R81 draws bits 5:4 as one box, where a word may show them as two. -/
theorem encodeLsh2_eq_bits (a d r : Bool) (rd rs : Reg) :
    encodeLsh2 a d r rd rs =
      0b101#3 ++ BitVec.ofBool a ++ regBits rd ++ BitVec.ofBool d ++ BitVec.ofBool r ++ 0b1#1 ++ 0b0#1 ++
        regBits rs := by
  rw [encodeLsh2, append_10]

/-- Bits 5:4 = 11 of an opcode-101 word are unallocated (R88). -/
theorem decodeWord_of_unallocated_101 {w : Half} (hop : field w 13 3 = 0b101#3) (h54 : field w 4 2 = 0b11#2) :
    decodeWord w = .reserved101 w := by
  have h5 : w.getLsbD 5 = true := (field_eq_iff w 4 2 _).1 h54 1 (by decide)
  have h4 : w.getLsbD 4 = true := (field_eq_iff w 4 2 _).1 h54 0 (by decide)
  rw [decodeWord_of_opcode_101 hop, decodeShift_eq, h5, h4]
  rfl

/-- Settles O5: one lemma per format over A, D, R, at each of their values, and the unallocated words. -/
theorem shiftFormats : Obligations.ShiftFormats := by
  intro rd rs d imm
  have lsh1 (a d r : Bool) := decodeWord_lsh1_format a d r rd imm
  have lsh2 (a d r : Bool) := encodeLsh2_eq_bits a d r rd rs ▸ decodeWord_lsh2_format a d r rd rs
  obtain ⟨hlsh1, hlsh2⟩ := reserved_rows d rd rs imm
  exact ⟨lsh1 false false false, lsh1 false true false, lsh1 true false false, lsh1 true true false,
    lsh1 false false true, lsh1 false true true, (lsh1 true d true).trans hlsh1,
    lsh2 false false false, lsh2 false true false, lsh2 true false false, lsh2 true true false,
    lsh2 false false true, lsh2 false true true,
    (lsh2 true d true).trans hlsh2, fun _ => decodeWord_of_unallocated_101⟩

end Sys2Proof.Machine


/-! PROOF. Decode and encode are inverse of each other: O7, O6, O8 and O1. -/

namespace Sys2Proof.Machine

open Sys2Proof

/-! ### Every well-formed instruction decodes from its own word -/

/-- The bank selector a selector's own bit names. -/
theorem selOfBit_decide (b : BankSel) : selOfBit (decide (b = .alternative)) = b := by
  cases b <;> rfl

/-- TST's word, with bits 7:6 as two boxes (R77). -/
theorem encode_tst_eq_bits (rn : Reg) (bn : BankSel) (imm : BitVec 5) :
    encode (.tst rn bn imm) =
      0b0111#4 ++ BitVec.ofFin (w := 4) rn ++ 0b1#1 ++ 0b0#1 ++ BitVec.ofBool (decide (bn = .alternative)) ++ imm := by
  rw [encode, append_10, selBit_eq_ofBool]
  rfl

theorem decodeWord_of_reserved0111 {w : Half} (h : w &&& 0xF040#16 = 0x7040#16) :
    decodeWord w = .reserved0111 w := by
  obtain ⟨htop, h6⟩ := (masked_0111_iff w).1 h
  rw [decodeWord_of_top_0111 htop, h6, if_pos rfl]

theorem decodeWord_of_reserved101 {w : Half} (h : w &&& 0xE030#16 = 0xA030#16) :
    decodeWord w = .reserved101 w := by
  obtain ⟨hop, h54⟩ := (masked_101_iff w).1 h
  exact decodeWord_of_unallocated_101 hop h54

theorem decodeWord_of_undocumented {w : Half} (h : w &&& 0xC000#16 = 0xC000#16) :
    decodeWord w = .undocumented w := by
  rcases (masked_undocumented_iff w).1 h with hop | hop
  · rw [decodeWord, hop]
    rfl
  · rw [decodeWord, hop]
    rfl

/-- Settles O7: each format's decoding lemma at the instruction's own boxes; the three rows that carry their word are
decoded from the bits their mask fixes. -/
theorem decodeInvertsEncode : Obligations.DecodeInvertsEncode := by
  intro i hi
  cases i
  case beq off => exact decodeWord_branch_format 0 off
  case bne off => exact decodeWord_branch_format 1 off
  case bcs off => exact decodeWord_branch_format 2 off
  case bcc off => exact decodeWord_branch_format 3 off
  case bmi off => exact decodeWord_branch_format 4 off
  case bpl off => exact decodeWord_branch_format 5 off
  case bvs off => exact decodeWord_branch_format 6 off
  case bvc off => exact decodeWord_branch_format 7 off
  case bhi off => exact decodeWord_branch_format 8 off
  case bls off => exact decodeWord_branch_format 9 off
  case bge off => exact decodeWord_branch_format 10 off
  case blt off => exact decodeWord_branch_format 11 off
  case bgt off => exact decodeWord_branch_format 12 off
  case ble off => exact decodeWord_branch_format 13 off
  case bal off => exact decodeWord_branch_format 14 off
  case bnv off => exact decodeWord_branch_format 15 off
  case add1 rd imm rs => exact (decodeWord_rri4_format rd imm rs).1
  case sub1 rd imm rs => exact (decodeWord_rri4_format rd imm rs).2
  case add2 rd imm => exact (decodeWord_ri8_format rd imm).1
  case sub2 rd imm => exact (decodeWord_ri8_format rd imm).2.1
  case cmp1 rs imm => exact (decodeWord_ri8_format rs imm).2.2
  case cmp2 rn bn bx rx =>
    rw [encode_cmp2_eq_twoRegWord, decodeWord_cmp2_format, selOfBit_decide, selOfBit_decide]
  case tst rn bn imm => rw [encode_tst_eq_bits, decodeWord_tst_format, selOfBit_decide]
  case mov rd optB optW bd bs rs =>
    rw [encode_mov_eq_twoRegWord, decodeWord_mov_format, selOfBit_decide, selOfBit_decide]
  case ldi imm => exact decodeWord_ldi_format imm
  case lslImm | lsrImm | aslImm | asrImm | rolImm | rorImm => exact decodeWord_lsh1_format ..
  case lslReg | lsrReg | aslReg | asrReg | rolReg | rorReg => exact decodeWord_lsh2_format ..
  case lsh1Reserved rd d imm => exact (decodeWord_lsh1_format ..).trans (reserved_rows d rd 0 imm).1
  case lsh2Reserved rd d rs => exact (decodeWord_lsh2_format ..).trans (reserved_rows d rd rs 0).2
  case reserved0111 w => exact decodeWord_of_reserved0111 (eq_of_beq hi)
  case reserved101 w => exact decodeWord_of_reserved101 (eq_of_beq hi)
  case undocumented w => exact decodeWord_of_undocumented (eq_of_beq hi)

/-! ### Every word is the word of the instruction it decodes to -/

/-- The instruction is one the opcode map has, and its word is `w`. -/
def IsInstrOf (w : Half) (i : Instr) : Prop := i.WellFormed = true ∧ encode i = w

theorem isInstrOf_branchRows (cond : BitVec 4) (off : BitVec 9) :
    IsInstrOf (encodeB cond off) (branchRows[cond.toNat] off) := by
  obtain ⟨c, hc⟩ := cond
  change c < 16 at hc
  interval_cases c <;> exact ⟨rfl, rfl⟩

theorem isInstrOf_lsh1Row (a d r : Bool) (rd : Reg) (imm : BitVec 5) :
    IsInstrOf (encodeLsh1 a d r rd imm) (lsh1Row a d r rd imm) := by
  cases a <;> cases d <;> cases r <;> exact ⟨rfl, rfl⟩

theorem isInstrOf_lsh2Row (a d r : Bool) (rd rs : Reg) :
    IsInstrOf (encodeLsh2 a d r rd rs) (lsh2Row a d r rd rs) := by
  cases a <;> cases d <;> cases r <;> exact ⟨rfl, rfl⟩

/-- A register's field holds the register read from it (R71). -/
theorem regBits_regField (w : Half) (lo : Nat) : regBits (regField w lo) = field w lo 4 := rfl

/-- A 2-bit field is its two bits. -/
theorem field_two (w : Half) (k : Nat) :
    field w k 2 = BitVec.ofBool (w.getLsbD (k + 1)) ++ BitVec.ofBool (w.getLsbD k) := by
  rw [ofBool_getLsbD, ofBool_getLsbD]
  exact (field_append_field w (m := 1) (n := 1) rfl).symm

theorem isInstrOf_decodeBranch {w : Half} (hop : field w 13 3 = 0b000#3) : IsInstrOf w (decodeBranch w) := by
  have hword : encodeB (field w 9 4) (field w 0 9) = w := by
    rw [encodeB, ← hop]
    simp (disch := rfl) only [field_append_field]
    exact field_whole w
  have hrow := isInstrOf_branchRows (field w 9 4) (field w 0 9)
  rwa [hword, ← decodeBranch_eq_branchRows rfl rfl] at hrow

theorem isInstrOf_decodeShift {w : Half} (hop : field w 13 3 = 0b101#3) : IsInstrOf w (decodeShift w) := by
  rw [decodeShift_eq]
  cases h5 : w.getLsbD 5 with
  | false =>
    have hbox : field w 5 1 = 0b0#1 := by rw [← ofBool_getLsbD, h5]; rfl
    have hword : encodeLsh1 (w.getLsbD 12) (w.getLsbD 7) (w.getLsbD 6) (regField w 8) (field w 0 5) = w := by
      simp (disch := rfl) only [encodeLsh1, ofBool_getLsbD, regBits_regField, ← hop, ← hbox, field_append_field]
      exact field_whole w
    have hrow := isInstrOf_lsh1Row (w.getLsbD 12) (w.getLsbD 7) (w.getLsbD 6) (regField w 8) (field w 0 5)
    rwa [hword] at hrow
  | true =>
    cases h4 : w.getLsbD 4 with
    | false =>
      have hbox : field w 4 2 = 0b10#2 := by rw [field_two, h5, h4]; rfl
      have hword : encodeLsh2 (w.getLsbD 12) (w.getLsbD 7) (w.getLsbD 6) (regField w 8) (regField w 0) = w := by
        simp (disch := rfl) only [encodeLsh2, ofBool_getLsbD, regBits_regField, ← hop, ← hbox, field_append_field]
        exact field_whole w
      have hrow := isInstrOf_lsh2Row (w.getLsbD 12) (w.getLsbD 7) (w.getLsbD 6) (regField w 8) (regField w 0)
      rwa [hword] at hrow
    | true =>
      have hbox : field w 4 2 = 0b11#2 := by rw [field_two, h5, h4]; rfl
      exact ⟨beq_iff_eq.2 ((masked_101_iff w).2 ⟨hop, hbox⟩), rfl⟩

/-- The opcode and bit 12 are the top four bits. -/
theorem top_of_opcode_and_bit12 {w : Half} {x : BitVec 3} {b : Bool} (hop : field w 13 3 = x)
    (h12 : w.getLsbD 12 = b) : field w 12 4 = x ++ BitVec.ofBool b := by
  rw [← hop, ← h12, ofBool_getLsbD]
  exact (field_append_field w (m := 3) (n := 1) rfl).symm

theorem rri4Word_fields {w : Half} {top : BitVec 4} (htop : field w 12 4 = top) :
    rri4Word top (regField w 8) (field w 4 4) (regField w 0) = w := by
  simp (disch := rfl) only [rri4Word, regBits_regField, ← htop, field_append_field]
  exact field_whole w

theorem ri8Word_fields {w : Half} {top : BitVec 4} (htop : field w 12 4 = top) :
    ri8Word top (regField w 8) (field w 0 8) = w := by
  simp (disch := rfl) only [ri8Word, regBits_regField, ← htop, field_append_field]
  exact field_whole w

theorem encode_tst_fields {w : Half} (htop : field w 12 4 = 0b0111#4) (h76 : field w 6 2 = 0b10#2) :
    encode (.tst (regField w 8) (selField w 5) (field w 0 5)) = w := by
  simp (disch := rfl) only [encode, selBit_selField, regBits_regField, ← htop, ← h76, field_append_field]
  exact field_whole w

theorem encode_cmp2_fields {w : Half} (htop : field w 12 4 = 0b0111#4) (h76 : field w 6 2 = 0b00#2) :
    encode (.cmp2 (regField w 8) (selField w 5) (selField w 4) (regField w 0)) = w := by
  simp (disch := rfl) only [encode, selBit_selField, regBits_regField, ← htop, ← h76, field_append_field]
  exact field_whole w

theorem encode_mov_fields {w : Half} (htop : field w 12 4 = 0b1000#4) :
    encode (.mov (regField w 8) (w.getLsbD 7) (w.getLsbD 6) (selField w 5) (selField w 4) (regField w 0)) = w := by
  simp (disch := rfl) only [encode, ofBool_getLsbD, selBit_selField, regBits_regField, ← htop, field_append_field]
  exact field_whole w

theorem encode_ldi_fields {w : Half} (htop : field w 12 4 = 0b1001#4) : encode (.ldi (field w 0 12)) = w := by
  simp (disch := rfl) only [encode, ← htop, field_append_field]
  exact field_whole w

theorem isInstrOf_decodeCompare {w : Half} (hop : field w 13 3 = 0b011#3) : IsInstrOf w (decodeCompare w) := by
  rw [decodeCompare]
  cases h12 : w.getLsbD 12 with
  | false => exact ⟨rfl, ri8Word_fields (top_of_opcode_and_bit12 hop h12)⟩
  | true =>
    have htop : field w 12 4 = 0b0111#4 := top_of_opcode_and_bit12 hop h12
    cases h6 : w.getLsbD 6 with
    | true => exact ⟨beq_iff_eq.2 ((masked_0111_iff w).2 ⟨htop, h6⟩), rfl⟩
    | false =>
      cases h7 : w.getLsbD 7 with
      | true => exact ⟨rfl, encode_tst_fields htop (by rw [field_two, h7, h6]; rfl)⟩
      | false => exact ⟨rfl, encode_cmp2_fields htop (by rw [field_two, h7, h6]; rfl)⟩

/-- Settles O6, by opcode: under each, the boxes the decoder reads are the whole word again. -/
theorem everyWordIsOneInstruction : Obligations.EveryWordIsOneInstruction := by
  intro w
  change IsInstrOf w (decodeWord w)
  have hcases : ∀ x : BitVec 3, x = 0b000#3 ∨ x = 0b001#3 ∨ x = 0b010#3 ∨ x = 0b011#3 ∨ x = 0b100#3 ∨ x = 0b101#3 ∨
      x = 0b110#3 ∨ x = 0b111#3 := by decide
  rcases hcases (field w 13 3) with hop | hop | hop | hop | hop | hop | hop | hop <;> rw [decodeWord, hop]
  · exact isInstrOf_decodeBranch hop
  · change IsInstrOf w (if w.getLsbD 12 then _ else _)
    cases h12 : w.getLsbD 12 with
    | true => exact ⟨rfl, ri8Word_fields (top_of_opcode_and_bit12 hop h12)⟩
    | false => exact ⟨rfl, rri4Word_fields (top_of_opcode_and_bit12 hop h12)⟩
  · change IsInstrOf w (if w.getLsbD 12 then _ else _)
    cases h12 : w.getLsbD 12 with
    | true => exact ⟨rfl, ri8Word_fields (top_of_opcode_and_bit12 hop h12)⟩
    | false => exact ⟨rfl, rri4Word_fields (top_of_opcode_and_bit12 hop h12)⟩
  · exact isInstrOf_decodeCompare hop
  · change IsInstrOf w (if w.getLsbD 12 then _ else _)
    cases h12 : w.getLsbD 12 with
    | true => exact ⟨rfl, encode_ldi_fields (top_of_opcode_and_bit12 hop h12)⟩
    | false => exact ⟨rfl, encode_mov_fields (top_of_opcode_and_bit12 hop h12)⟩
  · exact isInstrOf_decodeShift hop
  · exact ⟨beq_iff_eq.2 ((masked_undocumented_iff w).2 (.inl hop)), rfl⟩
  · exact ⟨beq_iff_eq.2 ((masked_undocumented_iff w).2 (.inr hop)), rfl⟩

/-! ### Two bytes -/

/-- The two bytes of a word give the word back, in either order (R52, R62). -/
theorem decode_bytesOfWord (o : ByteOrder) (w : Half) (rest : List Byte) :
    decode o (bytesOfWord o w ++ rest) = .ok (decodeWord w, rest) := by
  have hword : field w 8 8 ++ field w 0 8 = w := (field_append_field w rfl).trans (field_whole w)
  cases o <;> exact congrArg (fun v => Except.ok (decodeWord v, rest)) hword

/-- Settles O8: the two bytes are the word's, which O7 decodes. -/
theorem twoBytesDecodeInEitherOrder : Obligations.TwoBytesDecodeInEitherOrder := by
  refine ⟨fun o i rest hi => ?_, fun o bs hbs => ?_⟩
  · rw [decode_bytesOfWord, decodeInvertsEncode i hi]
  · match bs, hbs with
    | [], _ => rfl
    | [_], _ => rfl

/-- Settles O1: the twenty words are closed terms. -/
theorem decodeVectorsReadAsListed : Obligations.DecodeVectorsReadAsListed := by
  unfold Obligations.DecodeVectorsReadAsListed
  decide

end Sys2Proof.Machine

/-! PROOF. What an instruction that completes leaves behind, said once, and the frame statements O21, O22, O20, O15. -/

namespace Sys2Proof.Machine

open Sys2Proof

/-! ### Inversion of the shared operations -/

/-- The next states of a register write (R11). -/
theorem writeSel_next_cases {s t : State} {b : BankSel} {r : Reg} {v : Word} (h : s.writeSel b r v = .next t) :
    (r ≠ Reg.pc ∧ t = (s.setReg (s.selMode b) r (storedValue r v)).advance) ∨
    (r = Reg.pc ∧ EvenWord v ∧ b = .current ∧ t = s.jump v) ∨
    (r = Reg.pc ∧ EvenWord v ∧ b = .alternative ∧ t = (s.setReg s.mode.other Reg.pc v).advance) := by
  rcases writeSel_cases s b r v with ⟨hr, e⟩ | ⟨hr, he, hb, e⟩ | ⟨hr, he, hb, e⟩ | ⟨-, -, e⟩ <;> rw [e] at h <;>
    cases h
  · exact .inl ⟨hr, rfl⟩
  · exact .inr (.inl ⟨hr, he, hb, rfl⟩)
  · exact .inr (.inr ⟨hr, he, hb, rfl⟩)

/-- The next states of B (R101). -/
theorem branch_next_cases {s t : State} {k : Cond} {off : BitVec 9} (h : branch k off s = .next t) :
    (∃ v, EvenWord v ∧ t = s.jump v) ∨ t = s.advance := by
  rw [branch] at h
  split at h
  · rcases writeSel_next_cases h with ⟨hr, -⟩ | ⟨-, he, -, ht⟩ | ⟨-, -, hb, -⟩
    · exact absurd rfl hr
    · exact .inl ⟨_, he, ht⟩
    · cases hb
  · cases h
    exact .inr rfl

/-- The next states of an instruction: a branch's, a register write's to its destination, or a flag writer's. -/
theorem exec_next_cases {i : Instr} {s t : State} (h : exec i s = .next t) :
    (isBranch i = true ∧ ((∃ v, EvenWord v ∧ t = s.jump v) ∨ t = s.advance)) ∨
    (∃ b r v, dest i = some (b, r) ∧ s.writeSel b r v = .next t) ∨
    (setsFlags i = true ∧ ∃ f, t = (s.setFlags f).advance) := by
  rcases exec_cases i s with ⟨hi, k, off, e⟩ | ⟨b, r, v, hd, e⟩ | ⟨hi, f, e⟩ | ⟨_, -, -, e⟩ | e | e <;> rw [e] at h
  · exact .inl ⟨hi, branch_next_cases h⟩
  · exact .inr (.inl ⟨b, r, v, hd, h⟩)
  · cases h
    exact .inr (.inr ⟨hi, f, rfl⟩)
  all_goals cases h

/-- Branches and flag writers name no destination. -/
theorem dest_eq_none {i : Instr} (h : isBranch i = true ∨ setsFlags i = true) : dest i = none := by
  cases i
  case add1 | add2 | sub1 | sub2 | mov | ldi | lslImm | lsrImm | aslImm | asrImm | rolImm | rorImm | lslReg | lsrReg |
      aslReg | asrReg | rolReg | rorReg => simp [isBranch, setsFlags] at h
  all_goals rfl

/-! ### Frames -/

theorem sameOutside_mono {P Q : Mode → Reg → Prop} {s t : State} (hPQ : ∀ m r, P m r → Q m r)
    (h : SameOutside P s t) : SameOutside Q s t :=
  { h with reg := fun m r hn => h.reg m r (fun hp => hn (hPQ m r hp)) }

/-- A register write changes the current pc and the register it names. -/
theorem writeSel_sameOutside {s t : State} {b : BankSel} {r : Reg} {v : Word} (h : s.writeSel b r v = .next t) :
    SameOutside (fun m' r' => (m' = s.mode ∧ r' = Reg.pc) ∨ (m' = s.selMode b ∧ r' = r)) s t := by
  rcases writeSel_next_cases h with ⟨hr, rfl⟩ | ⟨rfl, -, rfl, rfl⟩ | ⟨rfl, -, rfl, rfl⟩
  · obtain ⟨-, -, hsame⟩ := storesOnly_advance s (s.selMode b) r (storedValue r v) (fun q => hr q.2)
    exact sameOutside_mono (fun _ _ => Or.symm) hsame
  · exact sameOutside_mono (fun _ _ => Or.inl) (goesTo_jump s v).2
  · obtain ⟨-, -, hsame⟩ := storesOnly_advance s s.mode.other Reg.pc v (fun q => other_ne _ q.1)
    exact sameOutside_mono (fun _ _ => Or.symm) hsame

/-- Settles O21, by what the next state can be: a branch's moves the pc, a register write's changes its destination
too, a flag writer's the current sr. -/
theorem instructionChangesOnlyWhatItNames : Obligations.InstructionChangesOnlyWhatItNames := by
  intro i s t h
  rcases exec_next_cases h with ⟨hi, ⟨v, -, rfl⟩ | rfl⟩ | ⟨b, r, v, hd, hw⟩ | ⟨hi, f, rfl⟩
  · refine ⟨sameOutside_mono (fun _ _ => Or.inl) (goesTo_jump s v).2, fun _ => ?_⟩
    rw [reg_jump, if_neg (fun e => absurd e.2 (by decide))]
  · refine ⟨sameOutside_mono (fun _ _ => Or.inl) (goesTo_advance s).2, fun _ => ?_⟩
    rw [reg_advance, if_neg (fun e => absurd e.2 (by decide))]
  · refine ⟨sameOutside_mono ?_ (writeSel_sameOutside hw), fun hf => ?_⟩
    · rintro m r' (hpc | ⟨hm, rfl⟩)
      · exact .inl hpc
      · exact .inr (.inl ⟨b, hd, hm⟩)
    · rw [dest_eq_none (.inr hf)] at hd
      cases hd
  · obtain ⟨-, hlow, -, hsame⟩ := flagsOnly_setFlags s f
    refine ⟨sameOutside_mono ?_ hsame, fun _ => hlow⟩
    rintro m r ⟨hm, rfl | rfl⟩
    · exact .inr (.inr ⟨hi, hm, rfl⟩)
    · exact .inl ⟨hm, rfl⟩

/-- Settles O22: what is left of the next states is the sequential advance, after a store or a flag write that does not
touch the current pc. -/
theorem otherInstructionsAdvanceThePc : Obligations.OtherInstructionsAdvanceThePc := by
  intro i s t h hbranch hdest
  rcases exec_next_cases h with ⟨hi, -⟩ | ⟨b, r, v, hd, hw⟩ | ⟨-, f, rfl⟩
  · rw [hbranch] at hi
    cases hi
  · rcases writeSel_next_cases hw with ⟨hr, rfl⟩ | ⟨rfl, -, rfl, -⟩ | ⟨rfl, -, rfl, rfl⟩
    · rw [advance_pc, State.pc, setReg_mode, reg_setReg, if_neg (fun e => hr e.2.symm), State.pc]
    · exact absurd hd hdest
    · rw [advance_pc, State.pc, setReg_mode, reg_setReg, if_neg (fun e => ne_other _ e.1), State.pc]
  · rw [advance_pc, State.pc, setFlags_mode, reg_setFlags, if_neg (fun e => absurd e.2 (by decide)), State.pc]

/-! ### Memory, the parameters and the mode along steps and runs -/

/-- Settles O20: interrupt entry, the instruction's frame and the stream's tick each keep both. -/
theorem stepKeepsMemoryAndParameters : Obligations.StepKeepsMemoryAndParameters := by
  intro s t h
  rcases step_next_cases h with ⟨-, rfl⟩ | ⟨-, w, u, -, hx, rfl⟩
  · exact ⟨fun _ => rfl, rfl⟩
  · obtain ⟨hsame, -⟩ := instructionChangesOnlyWhatItNames _ s u hx
    exact ⟨fun a => by rw [tickIrq_mem, hsame.mem], by rw [tickIrq_params, hsame.params]⟩

theorem exec_keeps_mode {i : Instr} {s t : State} (h : exec i s = .next t) : t.mode = s.mode :=
  (instructionChangesOnlyWhatItNames i s t h).1.mode

/-- An event is taken only in normal mode, and it is the one at the head of the stream (R185, R187). -/
theorem irqDue_iff (s : State) : s.irqDue = true ↔ s.mode = .normal ∧ ∃ es, s.irq = 0 :: es := by
  unfold State.irqDue
  split
  · next hm hirq => exact ⟨fun _ => ⟨hm, _, hirq⟩, fun _ => rfl⟩
  · next hno => exact ⟨fun h => absurd h Bool.false_ne_true, fun ⟨hm, es, hirq⟩ => absurd hirq (hno es hm)⟩

/-- Settles O15: a step is an instruction, which keeps the mode, or an entry, which needs normal mode; the run is an
induction on its length. -/
theorem onlyInterruptEntryChangesTheMode : Obligations.OnlyInterruptEntryChangesTheMode := by
  refine ⟨fun i s t => exec_keeps_mode, fun s t h hne => ?_, fun k s t hs h => ?_⟩
  · rcases step_next_cases h with ⟨hdue, rfl⟩ | ⟨-, w, u, -, hx, rfl⟩
    · obtain ⟨hm, es, hirq⟩ := (irqDue_iff s).1 hdue
      exact ⟨hm, rfl, by rw [enterInterrupt_irq, hirq]; rfl⟩
    · exact absurd (by rw [tickIrq_mode, exec_keeps_mode hx]) hne
  · refine run_keeps Sys2Proof.core (fun s => s.mode = .interrupt) (fun s t hs h => ?_) k s t hs h
    rcases step_next_cases h with ⟨-, rfl⟩ | ⟨-, w, u, -, hx, rfl⟩
    · rfl
    · rw [tickIrq_mode, exec_keeps_mode hx, hs]

end Sys2Proof.Machine

/-! PROOF. The invariant: O18, and the launches that establish it, O17 and O16, and O19. -/

namespace Sys2Proof.Machine

open Sys2Proof

/-! ### Every update keeps the invariant -/

theorem inv_setReg {s : State} (hs : s.Inv) (m : Mode) {r : Reg} {v : Word} (hpc : r = Reg.pc → EvenWord v)
    (hsr : r = Reg.sr → EvenWord v) : (s.setReg m r v).Inv where
  pcEven m' := by
    rw [reg_setReg]
    split
    · next h => exact hpc h.2.symm
    · exact hs.pcEven m'
  srBit0 m' := by
    rw [reg_setReg]
    split
    · next h => exact hsr h.2.symm
    · exact hs.srBit0 m'
  memWf := by rw [setReg_mem]; exact hs.memWf

/-- A write to R15 alone concerns the invariant only by its value's bit 0. -/
theorem inv_setPc {s : State} (hs : s.Inv) (m : Mode) {v : Word} (hv : EvenWord v) : (s.setReg m Reg.pc v).Inv :=
  inv_setReg hs m (fun _ => hv) (fun _ => hv)

theorem inv_advance {s : State} (hs : s.Inv) : s.advance.Inv :=
  inv_setPc hs _ (evenWord_add (hs.pcEven s.mode) (by decide))

/-- A control transfer to an even value lands on an even pc, under either bias (R33, R34). -/
theorem inv_jump {s : State} (hs : s.Inv) {v : Word} (hv : EvenWord v) : (s.jump v).Inv :=
  inv_setPc hs _ (evenWord_add hv (by cases s.params.pcWriteBias <;> decide))

theorem inv_setFlags {s : State} (hs : s.Inv) (f : Flags) : (s.setFlags f).Inv := by
  refine inv_setReg hs _ (fun h => absurd h (by decide)) (fun _ => ?_)
  rw [EvenWord, getLsbD_withFlags _ _ (by decide)]
  exact hs.srBit0 s.mode

theorem inv_writeSel {s t : State} (hs : s.Inv) {b : BankSel} {r : Reg} {v : Word}
    (h : s.writeSel b r v = .next t) : t.Inv := by
  rcases writeSel_next_cases h with ⟨hr, rfl⟩ | ⟨-, he, -, rfl⟩ | ⟨-, he, -, rfl⟩
  · refine inv_advance (inv_setReg hs _ (fun e => absurd e hr) (fun e => ?_))
    rw [storedValue, if_pos e]
    exact withBit0_even v
  · exact inv_jump hs he
  · exact inv_advance (inv_setPc hs _ he)

theorem inv_exec {i : Instr} {s t : State} (hs : s.Inv) (h : exec i s = .next t) : t.Inv := by
  rcases exec_next_cases h with ⟨-, ⟨v, he, rfl⟩ | rfl⟩ | ⟨b, r, v, -, hw⟩ | ⟨-, f, rfl⟩
  · exact inv_jump hs he
  · exact inv_advance hs
  · exact inv_writeSel hs hw
  · exact inv_advance (inv_setFlags hs f)

/-- What changes the mode and the event stream alone keeps the invariant. -/
theorem inv_of_same {s t : State} (hs : s.Inv) (hreg : ∀ m r, t.reg m r = s.reg m r) (hmem : t.mem = s.mem) :
    t.Inv where
  pcEven m := by rw [hreg]; exact hs.pcEven m
  srBit0 m := by rw [hreg]; exact hs.srBit0 m
  memWf := by rw [hmem]; exact hs.memWf

/-- Settles O18: an entry leaves registers and memory alone, and so does the tick after an instruction that keeps the
invariant. -/
theorem stepKeepsTheInvariant : Obligations.StepKeepsTheInvariant := by
  intro s t hs h
  rcases step_next_cases h with ⟨-, rfl⟩ | ⟨-, w, u, -, hx, rfl⟩
  · exact inv_of_same hs (enterInterrupt_reg s) (enterInterrupt_mem s)
  · exact inv_of_same (inv_exec hs hx) (tickIrq_reg u) (tickIrq_mem u)

/-! ### Reset -/

/-- The values a launch draws for the registers of a bank (R201). -/
def drawOf (l : Launch) : Mode → Vector Word 16
  | .normal => l.draw0
  | .interrupt => l.draw1

/-- Discarding bit 0 by a mask is replacing it by 0 (R28). -/
theorem mask_bit0 (v : Word) : v &&& 0xFFFFFFFE#32 = withBit0 v false := by
  apply BitVec.eq_of_getLsbD_eq
  intro k hk
  rw [getLsbD_withBit0, BitVec.getLsbD_and, show 0xFFFFFFFE#32 = ~~~1#32 from rfl, BitVec.getLsbD_not,
    BitVec.getLsbD_one]
  by_cases h0 : k = 0 <;> simp [h0, hk]

/-- What a bank stores of the values drawn for it: all of them, bit 0 of R14 apart. -/
theorem getElem_drawnBank (draw : Vector Word 16) (r : Reg) :
    (drawnBank draw)[r] = if r = Reg.sr then withBit0 draw[14] false else draw[r] := by
  rw [Fin.getElem_fin, drawnBank, Vector.getElem_set, mask_bit0]
  by_cases hr : r = Reg.sr
  · subst hr; rfl
  · rw [if_neg hr, if_neg (fun e => hr (Fin.ext e.symm))]
    rfl

/-- Every register right after reset (R200). -/
theorem reg_boot (l : Launch) (m : Mode) (r : Reg) :
    (State.boot l).reg m r =
      if m = l.resetMode ∧ r = Reg.pc then l.resetPc else (drawnBank (drawOf l m))[r] := by
  have hbank : (State.boot l).bank m =
      if m = l.resetMode then (drawnBank (drawOf l m)).set 15 l.resetPc else drawnBank (drawOf l m) := by
    obtain ⟨_, mode, _, _, _, _, _⟩ := l
    cases mode <;> cases m <;> rfl
  rw [State.reg, hbank]
  by_cases hm : m = l.resetMode
  · rw [if_pos hm, Fin.getElem_fin, Vector.getElem_set]
    by_cases hr : r = Reg.pc
    · subst hr; exact (if_pos ⟨hm, rfl⟩).symm
    · rw [if_neg (fun e => hr (Fin.ext e.symm)), if_neg (fun e => hr e.2)]
      rfl
  · rw [if_neg hm, if_neg (fun e => hm e.1)]

/-- A register with no special case at reset holds what was drawn for it (R201). -/
theorem reg_boot_of_drawn {l : Launch} {m : Mode} {r : Reg} (hsr : r ≠ Reg.sr)
    (hpc : ¬ (l.resetMode = m ∧ r = Reg.pc)) : (State.boot l).reg m r = (drawOf l m)[r] := by
  rw [reg_boot, if_neg (fun e => hpc ⟨e.1.symm, e.2⟩), getElem_drawnBank, if_neg hsr]

theorem reg_boot_sr (l : Launch) (m : Mode) : (State.boot l).reg m Reg.sr = withBit0 (drawOf l m)[14] false := by
  rw [reg_boot, if_neg (fun e => absurd e.2 (by decide)), getElem_drawnBank, if_pos rfl]

/-- Settles O16: the launch's own fields by definition, the registers by `reg_boot`; at the machine's own reset each of
the thirty-two is a closed term. -/
theorem resetHoldsTheLaunchValues : Obligations.ResetHoldsTheLaunchValues := by
  refine ⟨fun l => ⟨rfl, ?_, rfl, rfl, rfl, fun r => reg_boot_of_drawn, fun r => reg_boot_of_drawn,
    reg_boot_sr l .normal, reg_boot_sr l .interrupt⟩, rfl, rfl, rfl, rfl, fun m r => ?_⟩
  · exact (reg_boot l l.resetMode Reg.pc).trans (if_pos ⟨rfl, rfl⟩)
  · cases m <;> revert r <;> decide

theorem inv_boot {l : Launch} (hl : LaunchOk l) : (State.boot l).Inv where
  pcEven m := by
    by_cases hm : l.resetMode = m
    · rw [reg_boot, if_pos ⟨hm.symm, rfl⟩]
      exact hl.resetPcEven
    · rw [reg_boot_of_drawn (by decide) (fun e => hm e.1)]
      cases m with
      | normal => exact hl.draw0PcEven
      | interrupt => exact hl.draw1PcEven
  srBit0 m := by
    rw [reg_boot_sr]
    exact withBit0_even _
  memWf := hl.imageWf

/-- Settles O17: the machine's own reset is the reset of an admitted launch. -/
theorem resetMeetsTheInvariant : Obligations.ResetMeetsTheInvariant :=
  ⟨inv_boot ⟨by decide, by decide, by decide, rfl⟩, fun _ => inv_boot⟩

/-- At an even pc the fetch can fault only for an address that is not admitted (R55). -/
theorem fetch_ne_undefinedPcBit0 {s : State} (hs : EvenWord s.pc) (v : Word) :
    s.fetch ≠ .error (.undefinedPcBit0 v) := by
  rw [State.fetch, if_neg (not_odd hs)]
  cases memRead s.params.byteOrder s.mem s.pc 2 <;> simp

/-- Settles O19: the invariant holds at reset and along the run, and it makes the pc even. -/
theorem noFetchSeesAnOddPc : Obligations.NoFetchSeesAnOddPc := by
  intro l k s hl h v
  have hs : s.Inv := run_keeps Sys2Proof.core State.Inv stepKeepsTheInvariant k _ s (inv_boot hl) h
  exact fetch_ne_undefinedPcBit0 (hs.pcEven s.mode) v

end Sys2Proof.Machine

/-! PROOF. Register reads (R10, R28): O47 and O48. -/

namespace Sys2Proof.Machine

open Sys2Proof

theorem readCur_of_ne_sr (s : State) {r : Reg} (hr : r ≠ Reg.sr) : s.readCur r = s.reg s.mode r :=
  readSel_of_ne_sr s .current hr

theorem readAlt_of_ne_sr (s : State) {r : Reg} (hr : r ≠ Reg.sr) : s.readAlt r = s.reg s.mode.other r :=
  readSel_of_ne_sr s .alternative hr

theorem readCur_sr (s : State) : s.readCur Reg.sr = withBit0 (s.reg s.mode Reg.sr) (s.mode == .interrupt) :=
  if_pos rfl

theorem readAlt_sr (s : State) : s.readAlt Reg.sr = withBit0 (s.reg s.mode.other Reg.sr) s.altIBit :=
  if_pos rfl

/-- I, bit 0 of the current R14, is the mode (R28). -/
theorem readCur_sr_bit0 (s : State) : (s.readCur Reg.sr).getLsbD 0 = (s.mode == .interrupt) := by
  rw [readCur_sr, getLsbD_withBit0, if_pos rfl]

theorem readAlt_sr_bit0 (s : State) : (s.readAlt Reg.sr).getLsbD 0 = s.altIBit := by
  rw [readAlt_sr, getLsbD_withBit0, if_pos rfl]

/-- `ASR_I_READ` = bank: the alternative bank is the interrupt bank exactly in normal mode (D14). -/
theorem altIBit_of_bank {s : State} (h : s.params.asrIRead = .bank) : s.altIBit = (s.mode.other == .interrupt) := by
  rw [State.altIBit, h]

/-- `ASR_I_READ` = mode (D14). -/
theorem altIBit_of_mode {s : State} (h : s.params.asrIRead = .mode) : s.altIBit = (s.mode == .interrupt) := by
  rw [State.altIBit, h]

/-- Settles O47, by R14 or not, and bit 0 of R14 or not. -/
theorem registersReadAsStored : Obligations.RegistersReadAsStored := by
  intro s
  refine ⟨fun r hr => ⟨readCur_of_ne_sr s hr, readAlt_of_ne_sr s hr⟩, fun k hk => ?_, ?_, fun h => ?_, fun h => ?_, rfl⟩
  · rw [readCur_sr, readAlt_sr, getLsbD_withBit0, getLsbD_withBit0, if_neg hk.ne', if_neg hk.ne']
    exact ⟨rfl, rfl⟩
  · rw [readCur_sr_bit0, beq_iff_eq]
  · rw [readAlt_sr_bit0, altIBit_of_bank h]
    cases s.mode <;> decide
  · rw [readAlt_sr_bit0, altIBit_of_mode h, beq_iff_eq]

/-- Bit 0 of either R14 reads from the mode and the parameters alone. -/
theorem sr_bit0_congr {s t : State} (hmode : t.mode = s.mode) (hparams : t.params = s.params) :
    (t.readCur Reg.sr).getLsbD 0 = (s.readCur Reg.sr).getLsbD 0 ∧
      (t.readAlt Reg.sr).getLsbD 0 = (s.readAlt Reg.sr).getLsbD 0 := by
  rw [readCur_sr_bit0, readCur_sr_bit0, readAlt_sr_bit0, readAlt_sr_bit0, State.altIBit, State.altIBit, hmode, hparams]
  exact ⟨rfl, rfl⟩

/-- An instruction that names a destination completes by the write to it. -/
theorem writeSel_of_dest {i : Instr} {s t : State} {b : BankSel} {r : Reg} (hd : dest i = some (b, r))
    (h : exec i s = .next t) : ∃ v, s.writeSel b r v = .next t := by
  rcases exec_next_cases h with ⟨hi, -⟩ | ⟨b', r', v, hd', hw⟩ | ⟨hi, -⟩
  · rw [dest_eq_none (.inl hi)] at hd
    cases hd
  · rw [hd] at hd'
    cases hd'
    exact ⟨v, hw⟩
  · rw [dest_eq_none (.inr hi)] at hd
    cases hd

/-- Settles O48: the write stores bit 0 as 0, and what bit 0 reads as comes from the mode and the parameters, which the
frame keeps. -/
theorem statusBit0IsReadOnly : Obligations.StatusBit0IsReadOnly := by
  intro i s t b hd h
  obtain ⟨hsame, -⟩ := instructionChangesOnlyWhatItNames i s t h
  refine ⟨hsame.mode, ?_, sr_bit0_congr hsame.mode hsame.params⟩
  obtain ⟨v, hw⟩ := writeSel_of_dest hd h
  have hsr : Reg.sr ≠ Reg.pc := by decide
  rcases writeSel_next_cases hw with ⟨-, rfl⟩ | ⟨hr, -⟩ | ⟨hr, -⟩
  · rw [reg_advance, if_neg (fun e => hsr e.2), reg_setReg_self]
    exact withBit0_even v
  · exact absurd hr hsr
  · exact absurd hr hsr

end Sys2Proof.Machine

/-! PROOF. Interrupt entry and the event stream: O13 and O14. -/

namespace Sys2Proof.Machine

open Sys2Proof

theorem step_of_irqDue {s : State} (h : s.irqDue = true) : step s = .next s.enterInterrupt := if_pos h

/-- An event already offered stays as it is while instructions complete (R187). -/
theorem tickIrq_of_offered {s : State} {es : List Nat} (h : s.irq = [] ∨ s.irq = 0 :: es) : s.tickIrq = s := by
  rw [State.tickIrq]
  rcases h with h | h <;> rw [h]

/-- Settles O13: entry is `enterInterrupt`, whose current bank is the old alternative one and the other way round. -/
theorem interruptEntrySwapsBanks : Obligations.InterruptEntrySwapsBanks := by
  intro s es hm hirq
  have hother : s.mode.other = .interrupt := by rw [hm]; rfl
  have hentry := step_of_irqDue ((irqDue_iff s).2 ⟨hm, es, hirq⟩)
  have hes : s.enterInterrupt.irq = es := by rw [enterInterrupt_irq, hirq]; rfl
  refine ⟨s.enterInterrupt, hentry, rfl, hes, rfl, enterInterrupt_reg s, fun _ => rfl,
    enterInterrupt_reg s .interrupt Reg.pc, ?_, fun r hr => ?_, fun hbank => ?_⟩
  · rw [readCur_sr_bit0]
    rfl
  · rw [readCur_of_ne_sr _ hr, readAlt_of_ne_sr _ hr, readCur_of_ne_sr _ hr, readAlt_of_ne_sr _ hr,
      enterInterrupt_reg, enterInterrupt_reg, hother, hm]
    exact ⟨rfl, rfl⟩
  · rw [readCur_sr, readAlt_sr, readCur_sr, readAlt_sr, altIBit_of_bank hbank,
      altIBit_of_bank (s := s.enterInterrupt) hbank, enterInterrupt_reg, enterInterrupt_reg, hother, hm]
    exact ⟨rfl, rfl⟩

/-- Settles O14: in interrupt mode no entry is due, and the tick leaves an offered event alone. -/
theorem interruptEventWaitsInInterruptMode : Obligations.InterruptEventWaitsInInterruptMode := by
  intro s t es hm hirq h
  rcases step_next_cases h with ⟨hdue, -⟩ | ⟨-, w, u, hw, hx, rfl⟩
  · rw [((irqDue_iff s).1 hdue).1] at hm
    cases hm
  · obtain ⟨hsame, -⟩ := instructionChangesOnlyWhatItNames _ s u hx
    have hu : u.irq = 0 :: es := hsame.irq.trans hirq
    rw [tickIrq_of_offered (.inr hu)]
    exact ⟨hsame.mode.trans hm, hu, w, hw, hx⟩

end Sys2Proof.Machine

/-! PROOF. Memory by several bytes at a time (R62), and O11. -/

namespace Sys2Proof.Machine

open Sys2Proof

/-! ### Bytes and the numbers they hold -/

theorem length_natToBytes (n v : Nat) : (natToBytes n v).length = n := by
  induction n generalizing v with
  | zero => rfl
  | succ n ih => rw [natToBytes, List.length_cons, ih]

/-- The low `n` bytes of a number hold its low 8n bits. -/
theorem bytesToNat_natToBytes (n v : Nat) : bytesToNat (natToBytes n v) = v % 2 ^ (8 * n) := by
  induction n generalizing v with
  | zero => simp [natToBytes, bytesToNat, Nat.mod_one]
  | succ n ih =>
    have hpow : 2 ^ (8 * (n + 1)) = 256 * 2 ^ (8 * n) := by rw [Nat.mul_succ, Nat.pow_add, Nat.mul_comm]
    rw [natToBytes, bytesToNat, ih, hpow, Nat.mod_mul, BitVec.toNat_ofNat]

theorem length_arrangeBytes (o : ByteOrder) (bs : List Byte) : (arrangeBytes o bs).length = bs.length := by
  cases o with
  | little => rfl
  | big => exact List.length_reverse

/-- Arranging twice by one byte order is arranging not at all. -/
theorem arrangeBytes_arrangeBytes (o : ByteOrder) (bs : List Byte) : arrangeBytes o (arrangeBytes o bs) = bs := by
  cases o with
  | little => rfl
  | big => exact List.reverse_reverse bs

/-! ### Reading what was written -/

/-- Addresses less than 2^32 apart are distinct modulo 2^32. -/
theorem toNat_ne_toNat_succ_add {a : Word} {k : Nat} (hk : k + 1 < 2 ^ 32) :
    a.toNat ≠ (a + 1 + BitVec.ofNat 32 k).toNat := by
  have := a.isLt
  rw [BitVec.toNat_add, BitVec.toNat_add, BitVec.toNat_ofNat, show (1 : Word).toNat = 1 from rfl]
  omega

/-- The address of the byte after the first of a sequence. -/
theorem add_one_add (a : Word) (k : Nat) : a + 1 + BitVec.ofNat 32 k = a + BitVec.ofNat 32 (k + 1) := by
  rw [BitVec.add_assoc, Nat.add_comm k 1, BitVec.ofNat_add]
  rfl

/-- A write of several bytes leaves every address outside them alone. -/
theorem read_writeBytes_of_ne (m : Memory) (a : Word) (bs : List Byte) {a' : Nat}
    (h : ∀ k, k < bs.length → a' ≠ (a + BitVec.ofNat 32 k).toNat) :
    Memory.read (Memory.writeBytes m a bs) a' = Memory.read m a' := by
  induction bs generalizing m a with
  | nil => rfl
  | cons b bs ih =>
    have hhead : a' ≠ a.toNat := by simpa using h 0 (by simp)
    rw [Memory.writeBytes, ih, read_write_of_ne m b hhead]
    intro k hk
    rw [add_one_add]
    exact h (k + 1) (by simpa using hk)

/-- The bytes just written read back, as long as they do not run into each other around the address space. -/
theorem readBytes_writeBytes (m : Memory) (a : Word) (bs : List Byte) (hlen : bs.length ≤ 2 ^ 32) :
    Memory.readBytes (Memory.writeBytes m a bs) a bs.length = some bs := by
  induction bs generalizing m a with
  | nil => rfl
  | cons b bs ih =>
    rw [List.length_cons] at hlen
    have hhead : Memory.read (Memory.writeBytes (Memory.write m a.toNat b) (a + 1) bs) a.toNat = some b := by
      rw [read_writeBytes_of_ne _ _ _ (fun k hk => toNat_ne_toNat_succ_add (by omega)), read_write_self]
    rw [Memory.writeBytes, List.length_cons, Memory.readBytes, hhead, ih _ _ (by omega)]

/-- `MemRead` after `MemWrite` (R62). -/
theorem memRead_memWrite (o : ByteOrder) (m : Memory) (a : Word) {n : Nat} (v : Nat) (hn : n ≤ 2 ^ 32) :
    memRead o (memWrite o m a n v) a n = some (v % 2 ^ (8 * n)) := by
  have hlen : (arrangeBytes o (natToBytes n v)).length = n := by rw [length_arrangeBytes, length_natToBytes]
  have h := readBytes_writeBytes m a (arrangeBytes o (natToBytes n v)) (by omega)
  rw [hlen] at h
  rw [memRead, memWrite, h, Option.map_some, arrangeBytes_arrangeBytes, bytesToNat_natToBytes]

/-- Settles O11: the write's bytes read back, and the frame of the write. -/
theorem memReadReturnsWhatMemWriteStored : Obligations.MemReadReturnsWhatMemWriteStored := by
  intro o m a n v hn
  refine ⟨memRead_memWrite o m a v hn, fun a' h => read_writeBytes_of_ne m a _ ?_⟩
  rwa [length_arrangeBytes, length_natToBytes]

end Sys2Proof.Machine

/-! PROOF. The fetch and the step (R32, R51): O10, O9 and O12. -/

namespace Sys2Proof.Machine

open Sys2Proof

/-- Two bytes combined by the byte order are the word they hold (R52, R62). -/
theorem ofNat_bytesToNat (o : ByteOrder) (b0 b1 : Byte) :
    BitVec.ofNat 16 (bytesToNat (arrangeBytes o [b0, b1])) = wordOfBytes o b0 b1 := by
  have hpair (lo hi : Byte) : BitVec.ofNat 16 (lo.toNat + 256 * (hi.toNat + 256 * 0)) = hi ++ lo := by
    apply BitVec.eq_of_toNat_eq
    have hlo := lo.isLt
    have hhi := hi.isLt
    rw [BitVec.toNat_append, ← Nat.shiftLeft_add_eq_or_of_lt hlo, Nat.shiftLeft_eq, BitVec.toNat_ofNat]
    omega
  cases o with
  | little => exact hpair b0 b1
  | big => exact hpair b1 b0

/-- The two bytes at an address, or none when one of them is not admitted (R55). -/
theorem readBytes_two (m : Memory) (a : Word) :
    Memory.readBytes m a 2 =
      (Memory.read m a.toNat).bind fun b0 => (Memory.read m (a + 1).toNat).map fun b1 => [b0, b1] := by
  rw [Memory.readBytes, Memory.readBytes, Memory.readBytes]
  cases Memory.read m a.toNat <;> cases Memory.read m (a + 1).toNat <;> rfl

theorem fetch_of_bytes {s : State} {b0 b1 : Byte} (he : EvenWord s.pc)
    (h : Memory.readBytes s.mem s.pc 2 = some [b0, b1]) : s.fetch = .ok (wordOfBytes s.params.byteOrder b0 b1) := by
  rw [State.fetch, if_neg (not_odd he), memRead, h]
  exact congrArg Except.ok (ofNat_bytesToNat _ b0 b1)

theorem fetch_of_none {s : State} (he : EvenWord s.pc) (h : Memory.readBytes s.mem s.pc 2 = none) :
    s.fetch = .error (.fetchNotAdmitted s.pc) := by
  rw [State.fetch, if_neg (not_odd he), memRead, h]
  rfl

theorem step_of_fetch {s : State} (hdue : s.irqDue = false) {w : Half} (h : s.fetch = .ok w) :
    step s = afterInstr (exec (decodeWord w) s) := by
  rw [step, hdue, h]
  rfl

/-- Settles O10, by the pc's bit 0 and by which of the two bytes is admitted. -/
theorem fetchReadsTwoBytesInOrder : Obligations.FetchReadsTwoBytesInOrder := by
  intro s
  refine ⟨fun b0 b1 he h0 h1 => ?_, fun he h => ?_, fun ho => if_pos (odd_of_not_even ho), fun f hdue hf => ?_⟩
  · have hw := fetch_of_bytes he (by rw [readBytes_two, h0, h1]; rfl)
    exact ⟨fun ho => by rw [hw, ho]; rfl, fun ho => by rw [hw, ho]; rfl⟩
  · refine fetch_of_none he ?_
    rw [readBytes_two]
    rcases h with h | h
    · rw [h]
      rfl
    · rw [h]
      cases Memory.read s.mem s.pc.toNat <;> rfl
  · rw [step, hdue, hf]
    rfl

/-- Bytes that are one instruction and nothing after it are the two bytes of its word (R70). -/
theorem bytes_of_decode {o : ByteOrder} {bs : List Byte} {i : Instr} (h : decode o bs = .ok (i, [])) :
    ∃ b0 b1, bs = [b0, b1] ∧ decodeWord (wordOfBytes o b0 b1) = i := by
  match bs, h with
  | [b0, b1], h => exact ⟨b0, b1, rfl, by injection h with h; injection h⟩

/-- Settles O9: the fetch reads the bytes that decode to the instruction, and the tick's two cases are its
definition's. -/
theorem stepRunsTheDecodedInstruction : Obligations.StepRunsTheDecodedInstruction := by
  refine ⟨fun s bs i hdue he hbs hi => ?_, fun t n es h => ?_, fun t es => tickIrq_of_offered⟩
  · obtain ⟨b0, b1, rfl, rfl⟩ := bytes_of_decode hi
    rw [step_of_fetch hdue (fetch_of_bytes he hbs)]
    exact ⟨fun t h => by rw [h]; rfl, fun f h => by rw [h]; rfl, fun r h => by rw [h]; rfl⟩
  · rw [State.tickIrq, h]

/-! ### The word placed for the next step -/

/-- Dropping the offered events leaves none at the head. -/
theorem dropWhile_zero_ne (l es : List Nat) : l.dropWhile (· == 0) ≠ 0 :: es := by
  induction l with
  | nil => simp
  | cons n l ih =>
    rw [List.dropWhile_cons]
    split
    · exact ih
    · next hn => exact fun h => hn (by rw [(List.cons.inj h).1]; rfl)

theorem irqDue_withFetchWord (s : State) (n w : Nat) : (s.withFetchWord n w).irqDue = false := by
  rw [← Bool.not_eq_true, irqDue_iff]
  rintro ⟨hm, es, hirq⟩
  change (if s.irqDue then s.irq.dropWhile (· == 0) else s.irq) = 0 :: es at hirq
  split at hirq
  · exact dropWhile_zero_ne _ _ hirq
  · next hdue => exact hdue ((irqDue_iff s).2 ⟨hm, es, hirq⟩)

theorem tableWord_toNat (w : Half) : tableWord 16 w.toNat = w := by
  rw [tableWord, Nat.mod_eq_of_lt w.isLt, BitVec.ofNat_toNat, BitVec.setWidth_eq]

/-- The fetch after placing a word reads that word, in the state's own byte order. -/
theorem fetch_withFetchWord {s : State} (he : EvenWord s.pc) (w : Half) :
    (s.withFetchWord 16 w.toNat).fetch = .ok w := by
  have hpc : (s.withFetchWord 16 w.toNat).pc = s.pc := withFetchWord_reg s 16 w.toNat s.mode Reg.pc
  have hread : memRead s.params.byteOrder (s.withFetchWord 16 w.toNat).mem s.pc 2 = some w.toNat := by
    change memRead _ (memWrite _ s.mem s.pc 2 (tableWord 16 w.toNat).toNat) s.pc 2 = _
    rw [memRead_memWrite _ _ _ _ (by decide), tableWord_toNat, Nat.mod_eq_of_lt w.isLt]
  rw [State.fetch, hpc, if_neg (not_odd he), withFetchWord_params, hread]
  exact congrArg Except.ok (by rw [BitVec.ofNat_toNat, BitVec.setWidth_eq])

/-- Settles O12: no event is offered after the placing, and the fetch reads the placed word. -/
theorem placedWordIsExecutedNext : Obligations.PlacedWordIsExecutedNext := fun s w he =>
  ⟨withFetchWord_reg s 16 w.toNat, rfl, rfl,
    step_of_fetch (irqDue_withFetchWord s 16 w.toNat) (fetch_withFetchWord he w)⟩

end Sys2Proof.Machine

/-! PROOF. Where an instruction stops: O45, O46, O24 and O25. -/

namespace Sys2Proof.Machine

open Sys2Proof

/-! ### The rows without a meaning -/

theorem encode_of_decodeWord {w : Half} {i : Instr} (h : decodeWord w = i) : encode i = w :=
  h ▸ (everyWordIsOneInstruction w).2

theorem decodeWord_of_masked_bnv {w : Half} (h : w &&& 0xFE00#16 = 0x1E00#16) : decodeWord w = .bnv (field w 0 9) := by
  obtain ⟨hop, hcond⟩ := (masked_bnv_iff w).1 h
  rw [decodeWord, hop]
  exact decodeBranch_eq_branchRows hcond rfl

theorem decodeWord_of_masked_lsh1 {w : Half} (h : w &&& 0xF060#16 = 0xB040#16) :
    decodeWord w = .lsh1Reserved (regField w 8) (w.getLsbD 7) (field w 0 5) := by
  obtain ⟨hop, h12, h6, h5⟩ := (masked_lsh1_iff w).1 h
  rw [decodeWord_of_opcode_101 hop, decodeShift_eq, h5, h12, h6]
  exact (reserved_rows _ _ 0 _).1

theorem decodeWord_of_masked_lsh2 {w : Half} (h : w &&& 0xF070#16 = 0xB060#16) :
    decodeWord w = .lsh2Reserved (regField w 8) (w.getLsbD 7) (regField w 0) := by
  obtain ⟨hop, h12, h6, h5, h4⟩ := (masked_lsh2_iff w).1 h
  rw [decodeWord_of_opcode_101 hop, decodeShift_eq, h5, h4, h12, h6]
  exact (reserved_rows _ _ _ 0).2

/-- Settles O45: each mask fixes the boxes that select its row, and the row faults with its own word. -/
theorem reservedWordsFault : Obligations.ReservedWordsFault := by
  intro w s
  refine ⟨fun h => ?_, fun h => ?_, fun h => ?_, fun h => ?_, fun h => ?_⟩
  · have hrow := decodeWord_of_masked_bnv h
    exact ⟨_, hrow, by rw [exec, execBnv, encode_of_decodeWord hrow]⟩
  · exact ⟨decodeWord_of_reserved0111 h, rfl⟩
  · have hrow := decodeWord_of_masked_lsh1 h
    exact ⟨_, _, _, hrow, by rw [exec, execLsh1Reserved, encode_of_decodeWord hrow]⟩
  · have hrow := decodeWord_of_masked_lsh2 h
    exact ⟨_, _, _, hrow, by rw [exec, execLsh2Reserved, encode_of_decodeWord hrow]⟩
  · exact ⟨decodeWord_of_reserved101 h, rfl⟩

/-! ### Which rows stop whatever the state is -/

/-- The instruction is of a row with no meaning: it has no destination, is no branch and writes no flags. -/
def hasNoMeaning (i : Instr) : Bool := (dest i).isNone && !isBranch i && !setsFlags i

/-- The answer is the one of a row with no meaning (R102, R134, R153, R154, R172). -/
def stopsByRow : Outcome → Bool
  | .fault (.reservedEncoding _) | .refused _ => true
  | _ => false

theorem stopsByRow_writeSel (s : State) (b : BankSel) (r : Reg) (v : Word) : stopsByRow (s.writeSel b r v) = false := by
  rcases writeSel_cases s b r v with ⟨-, e⟩ | ⟨-, -, -, e⟩ | ⟨-, -, -, e⟩ | ⟨-, -, e⟩ <;> rw [e] <;> rfl

theorem stopsByRow_branch (k : Cond) (off : BitVec 9) (s : State) : stopsByRow (branch k off s) = false := by
  rw [branch]
  split
  · exact stopsByRow_writeSel ..
  · rfl

theorem stopsByRow_shiftReg (op : ShiftOp) (rd rs : Reg) (s : State) : stopsByRow (shiftReg op rd rs s) = false := by
  rw [shiftReg]
  split
  · rfl
  · exact stopsByRow_writeSel ..

/-- The rows with no meaning, and no other instruction, answer as such, in every state. -/
theorem stopsByRow_exec (i : Instr) (s : State) : stopsByRow (exec i s) = hasNoMeaning i := by
  cases i
  case beq | bne | bcs | bcc | bmi | bpl | bvs | bvc | bhi | bls | bge | blt | bgt | ble =>
    exact stopsByRow_branch ..
  case bal off => exact stopsByRow_branch .al off s
  case ldi imm => exact stopsByRow_writeSel s .current Reg.ir (signedImm imm)
  case add1 | add2 | sub1 | sub2 | mov | lslImm | lsrImm | aslImm | asrImm | rolImm | rorImm =>
    exact stopsByRow_writeSel ..
  case lslReg | lsrReg | aslReg | asrReg | rolReg | rorReg => exact stopsByRow_shiftReg ..
  case cmp1 | cmp2 | tst => rfl
  case bnv | reserved0111 | lsh1Reserved | lsh2Reserved | reserved101 | undocumented => rfl

theorem reservedWord_iff (w : Half) :
    reservedWord w = true ↔ w &&& 0xFE00#16 = 0x1E00#16 ∨ w &&& 0xF040#16 = 0x7040#16 ∨ w &&& 0xF060#16 = 0xB040#16 ∨
      w &&& 0xF070#16 = 0xB060#16 ∨ w &&& 0xE030#16 = 0xA030#16 := by
  simp only [reservedWord, Bool.or_eq_true, beq_iff_eq, or_assoc]

/-- A row with no meaning faults on a reserved word or is refused on an undocumented one. -/
theorem row_of_hasNoMeaning {i : Instr} (hwf : i.WellFormed = true) (h : hasNoMeaning i = true) (s : State) :
    (exec i s = .fault (.reservedEncoding (encode i)) ∧ reservedWord (encode i) = true) ∨
    (exec i s = .refused (.undocumentedOpcode (encode i)) ∧ encode i &&& 0xC000#16 = 0xC000#16) := by
  cases i
  case bnv off =>
    obtain ⟨hop, hcond, -⟩ := fields_encodeB 0b1111#4 off
    exact .inl ⟨rfl, (reservedWord_iff _).2 (.inl ((masked_bnv_iff _).2 ⟨hop, hcond⟩))⟩
  case reserved0111 w => exact .inl ⟨rfl, (reservedWord_iff _).2 (.inr (.inl (eq_of_beq hwf)))⟩
  case lsh1Reserved rd d imm =>
    have hop := List.mem_singleton.1 (Laws.OpcodeField.field_encodeLsh1 true d true rd imm)
    obtain ⟨h12, -, h6⟩ := bits_encodeLsh1 true d true rd imm
    have hmask := (masked_lsh1_iff _).2 ⟨hop, h12, h6, bit5_encodeLsh1 ..⟩
    exact .inl ⟨rfl, (reservedWord_iff _).2 (.inr (.inr (.inl hmask)))⟩
  case lsh2Reserved rd d rs =>
    have hop := List.mem_singleton.1 (Laws.OpcodeField.field_encodeLsh2 true d true rd rs)
    obtain ⟨h12, -, h6, h5, h4⟩ := bits_encodeLsh2 true d true rd rs
    have hmask := (masked_lsh2_iff _).2 ⟨hop, h12, h6, h5, h4⟩
    exact .inl ⟨rfl, (reservedWord_iff _).2 (.inr (.inr (.inr (.inl hmask))))⟩
  case reserved101 w => exact .inl ⟨rfl, (reservedWord_iff _).2 (.inr (.inr (.inr (.inr (eq_of_beq hwf)))))⟩
  case undocumented w => exact .inr ⟨rfl, eq_of_beq hwf⟩
  all_goals exact absurd h Bool.false_ne_true

/-- Settles O46: the row is refused by definition; a refusal comes from a row with no meaning, whose word then has bits
15:14 = 11. -/
theorem undocumentedWordsAreRefused : Obligations.UndocumentedWordsAreRefused := by
  refine fun w s => ⟨fun h => ⟨decodeWord_of_undocumented h, rfl⟩, fun h r hr => ?_⟩
  obtain ⟨hwf, hword⟩ := everyWordIsOneInstruction w
  have hno : hasNoMeaning (decodeWord w) = true := by rw [← stopsByRow_exec _ s, hr]; rfl
  rcases row_of_hasNoMeaning hwf hno s with ⟨hx, -⟩ | ⟨-, hmask⟩
  · rw [hr] at hx
    cases hx
  · exact h (hword ▸ hmask)

/-! ### The stops of the other instructions -/

/-- A register write stops only on an odd value for R15 (R34). -/
theorem writeSel_fault {s : State} {b : BankSel} {r : Reg} {v : Word} {f : Fault} (h : s.writeSel b r v = .fault f) :
    r = Reg.pc ∧ ¬ EvenWord v ∧ f = .undefinedPcBit0 v := by
  rcases writeSel_cases s b r v with ⟨-, e⟩ | ⟨-, -, -, e⟩ | ⟨-, -, -, e⟩ | ⟨hr, ho, e⟩ <;> rw [e] at h <;> cases h
  exact ⟨hr, ho, rfl⟩

/-- B stops only when it stands at an odd address, on the odd target (R34, R101). -/
theorem branch_fault {k : Cond} {off : BitVec 9} {s : State} {f : Fault} (h : branch k off s = .fault f) :
    ¬ EvenWord s.pc ∧ ∃ v, ¬ EvenWord v ∧ f = .undefinedPcBit0 v := by
  refine ⟨fun he => ?_, ?_⟩
  · obtain ⟨t, ht, -⟩ := branch_branches k off s he
    rw [h] at ht
    cases ht
  · rw [branch] at h
    split at h
    · obtain ⟨-, ho, hf⟩ := writeSel_fault h
      exact ⟨_, ho, hf⟩
    · cases h

/-- Settles O24, by what the instruction is: only a branch, a register write, an amount above 31 and a row with no
meaning can stop. -/
theorem stopsOnlyWhereTheSpecStops : Obligations.StopsOnlyWhereTheSpecStops := by
  refine fun i s hwf => ⟨fun f hf => ?_, fun r hr => ?_⟩
  · rcases exec_cases i s with ⟨hi, k, off, e⟩ | ⟨b, r, v, hd, e⟩ | ⟨-, _, e⟩ | ⟨rs, hrs, hn, e⟩ | e | e <;>
      rw [e] at hf
    · obtain ⟨hpc, v, ho, rfl⟩ := branch_fault hf
      exact .inl ⟨v, rfl, ho, .inr ⟨hi, hpc⟩⟩
    · obtain ⟨rfl, ho, rfl⟩ := writeSel_fault hf
      exact .inl ⟨v, rfl, ho, .inl ⟨b, hd⟩⟩
    · cases hf
    · cases hf
      exact .inr (.inl ⟨rs, hrs, hn, rfl⟩)
    · cases hf
      have hno : hasNoMeaning i = true := by rw [← stopsByRow_exec i s, e]; rfl
      rcases row_of_hasNoMeaning hwf hno s with ⟨-, hword⟩ | ⟨hx, -⟩
      · exact .inr (.inr ⟨rfl, hword⟩)
      · rw [e] at hx
        cases hx
    · cases hf
  · have hno : hasNoMeaning i = true := by rw [← stopsByRow_exec i s, hr]; rfl
    rcases row_of_hasNoMeaning hwf hno s with ⟨hx, -⟩ | ⟨hx, hmask⟩ <;> rw [hr] at hx <;> cases hx
    exact ⟨rfl, hmask⟩

/-- A word outside the reserved and the undocumented rows is of a row with a meaning. -/
theorem hasNoMeaning_decodeWord {w : Half} (hres : reservedWord w = false) (hund : w &&& 0xC000#16 ≠ 0xC000#16) :
    hasNoMeaning (decodeWord w) = false := by
  obtain ⟨hwf, hword⟩ := everyWordIsOneInstruction w
  rw [← Bool.not_eq_true]
  intro hno
  rcases row_of_hasNoMeaning hwf hno State.reset with ⟨-, h⟩ | ⟨-, h⟩ <;> rw [hword] at h
  · rw [hres] at h
    cases h
  · exact hund h

/-- Settles O25: each stop of `exec_cases` is excluded by one hypothesis. -/
theorem everyDocumentedInstructionCompletes : Obligations.EveryDocumentedInstructionCompletes := by
  intro w s hres hund he hdest hamount
  have hrow : stopsByRow (exec (decodeWord w) s) = false := by
    rw [stopsByRow_exec, hasNoMeaning_decodeWord hres hund]
  rcases exec_cases (decodeWord w) s with ⟨-, k, off, e⟩ | ⟨b, r, v, hd, e⟩ | ⟨-, f, e⟩ | ⟨rs, hrs, hn, e⟩ | e | e
  · obtain ⟨t, ht, -⟩ := branch_branches k off s he
    exact ⟨t, e.trans ht⟩
  · rcases writeSel_cases s b r v with ⟨-, hw⟩ | ⟨rfl, -⟩ | ⟨rfl, -⟩ | ⟨rfl, -⟩
    · exact ⟨_, e.trans hw⟩
    all_goals exact absurd hd (hdest b)
  · exact ⟨_, e⟩
  · exact absurd (hamount rs hrs) (by omega)
  all_goals
    rw [e] at hrow
    cases hrow

end Sys2Proof.Machine

/-! PROOF. ADD and SUB (R110 to R121): O29 to O32. -/

namespace Sys2Proof.Machine

open Sys2Proof

/-- A register write whose value takes the ADD and SUB immediate, under each reading of the parameter (R82, C1). -/
theorem writesResult_addSubImm {n : Nat} {s : State} {rd : Reg} {imm : BitVec n} {o : Outcome} (f : Word → Word)
    (ho : o = s.writeSel .current rd (f (addSubImm s.params.addSubImmExt imm))) :
    (s.params.addSubImmExt = .zero → WritesResult s .current rd (f (imm.setWidth 32)) o) ∧
    (s.params.addSubImmExt = .sign → WritesResult s .current rd (f (imm.signExtend 32)) o) := by
  have hw := writeSel_writesResult s .current rd (f (addSubImm s.params.addSubImmExt imm))
  rw [← ho] at hw
  exact ⟨fun h => by rwa [h] at hw, fun h => by rwa [h] at hw⟩

/-- Settles O29: ADD(1) is a register write of the sum. -/
theorem add1WritesTheSum : Obligations.Add1WritesTheSum := fun s rd rs _ =>
  writesResult_addSubImm (s.readCur rd + s.readCur rs + ·) rfl

/-- Settles O30: ADD(2) is a register write of the sum. -/
theorem add2WritesTheSum : Obligations.Add2WritesTheSum := fun s rd _ =>
  writesResult_addSubImm (s.readCur rd + ·) rfl

/-- Settles O31: SUB(1) is a register write of the difference. -/
theorem sub1WritesTheDifference : Obligations.Sub1WritesTheDifference := fun s rd rs _ =>
  writesResult_addSubImm (s.readCur rd - s.readCur rs - ·) rfl

/-- Settles O32: SUB(2) is a register write of the difference. -/
theorem sub2WritesTheDifference : Obligations.Sub2WritesTheDifference := fun s rd _ =>
  writesResult_addSubImm (s.readCur rd - ·) rfl

end Sys2Proof.Machine

/-! PROOF. The flags in terms of the numbers compared (R12, R130 to R133): O36, O33, O34, O35, O37. -/

namespace Sys2Proof.Machine

open Sys2Proof

/-- Negative means bit 31 is set (R26, C4). -/
theorem getLsbD_31 (x : Word) : x.getLsbD 31 = x.msb := (BitVec.msb_eq_getLsbD_last x).symm

/-- The bit test of R12 is the library's signed overflow of a subtraction. -/
theorem overflowFromSub_eq_ssubOverflow (a b : Word) : overflowFromSub a b = a.ssubOverflow b := by
  rw [overflowFromSub, BitVec.ssubOverflow_eq]
  cases a.msb <;> cases b.msb <;> cases (a - b).msb <;> rfl

/-- Settles O36: the library states signed overflow by the exact difference. -/
theorem overflowIsAnExactDifferenceOutOfRange : Obligations.OverflowIsAnExactDifferenceOutOfRange := by
  intro a b
  rw [overflowFromSub_eq_ssubOverflow, BitVec.ssubOverflow, Bool.or_eq_true, decide_eq_true_eq, decide_eq_true_eq,
    or_comm]

/-- The flags of `CMP a, b` are those of the numbers compared. -/
theorem cmpFlags_eq_compareFlagsSpec (k : CmpCompare) (a b : Word) : cmpFlags k a b = compareFlagsSpec k a b := by
  have hv : overflowFromSub a b = decide (SignedSubOverflows a b) :=
    Bool.eq_iff_iff.2 ((overflowIsAnExactDifferenceOutOfRange a b).trans decide_eq_true_iff.symm)
  have hz : (a - b == 0#32) = decide (a = b) := by rw [beq_eq_decide, decide_eq_decide]; exact sub_eq_zero
  rw [cmpFlags, compareFlagsSpec.eq_def, getLsbD_31, hz, hv]
  cases k <;> rfl

theorem compare_flagsOnly (s : State) (a b : Word) :
    ∃ t, s.compare a b = .next t ∧ FlagsOnly s t (compareFlagsSpec s.params.cmpCCompare a b) := by
  rw [State.compare, ← cmpFlags_eq_compareFlagsSpec]
  exact ⟨_, rfl, flagsOnly_setFlags s _⟩

/-- Settles O33: CMP(1) is a comparison with the widened immediate. -/
theorem cmp1WritesFourFlags : Obligations.Cmp1WritesFourFlags := fun s rs imm =>
  compare_flagsOnly s (s.readCur rs) (imm.signExtend 32)

/-- Settles O34: CMP(2) is a comparison of the registers its selectors name. -/
theorem cmp2WritesFourFlags : Obligations.Cmp2WritesFourFlags := fun s rn rx bn bx =>
  compare_flagsOnly s (s.readSel bn rn) (s.readSel bx rx)

/-- Under TST's mask only the tested bit can be set (R132). -/
theorem tstFlags_and_bitMask (old : Flags) (x : Word) (imm : BitVec 5) :
    tstFlags old (x &&& bitMask imm) =
      { n := decide (imm.toNat = 31) && x.getLsbD 31, z := !x.getLsbD imm.toNat, c := old.c, v := old.v } := by
  have hmask : bitMask imm = BitVec.twoPow 32 imm.toNat := (BitVec.twoPow_eq ..).symm
  have hn : (x &&& bitMask imm).msb = (decide (imm.toNat = 31) && x.getLsbD 31) := by
    rw [← getLsbD_31, BitVec.getLsbD_and, hmask, BitVec.getLsbD_twoPow, decide_eq_true imm.isLt, Bool.true_and,
      Bool.and_comm]
  have hz : (x &&& bitMask imm == 0#32) = !x.getLsbD imm.toNat := by
    rw [hmask, BitVec.and_twoPow]
    cases x.getLsbD imm.toNat with
    | false => rfl
    | true =>
      have hne : BitVec.twoPow 32 imm.toNat ≠ 0#32 := by
        rw [← hmask, ← BitVec.toNat_ne_iff_ne, toNat_bitMask]
        exact (Nat.two_pow_pos _).ne'
      exact beq_false_of_ne hne
  rw [tstFlags, hn, hz]

/-- Settles O35: the flags written are those of the tested bit, by a flag writer. -/
theorem tstWritesTwoFlags : Obligations.TstWritesTwoFlags := by
  intro s rn bn imm
  rw [← tstFlags_and_bitMask s.flags (s.readSel bn rn) imm]
  exact ⟨_, rfl, flagsOnly_setFlags s _⟩

/-- SUB(1) with immediate 0 stores the difference of its registers, under either extension (R120). -/
theorem reg_sub1_zero {s u : State} {rn rx : Reg} (hsr : rn ≠ Reg.sr) (hpc : rn ≠ Reg.pc)
    (h : exec (.sub1 rn 0 rx) s = .next u) : u.reg s.mode rn = s.readCur rn - s.readCur rx := by
  have himm (e : ImmExt) : addSubImm e (0 : BitVec 4) = 0 := by cases e <;> rfl
  obtain ⟨u', hu', hreg, -⟩ := writeSel_storesOnly s .current hpc hsr
    (s.readCur rn - s.readCur rx - addSubImm s.params.addSubImmExt (0 : BitVec 4))
  cases h.symm.trans hu'
  rwa [himm, sub_zero] at hreg

/-- Settles O37: CMP(2)'s N and Z are those of the difference, and SUB(1) stores it. -/
theorem comparisonFlagsAreThoseOfTheDifference : Obligations.ComparisonFlagsAreThoseOfTheDifference := by
  intro s t u rn rx hsr hpc ht hu
  obtain ⟨t', ht', hflags, -⟩ := cmp2WritesFourFlags s rn rx .current .current
  cases ht.symm.trans ht'
  rw [hflags, reg_sub1_zero hsr hpc hu]
  exact ⟨rfl, decide_eq_decide.2 sub_eq_zero.symm⟩

end Sys2Proof.Machine

/-! PROOF. The conditions of B (R100): after a comparison, O28, and in the current sr, O26. -/

namespace Sys2Proof.Machine

open Sys2Proof

/-! ### After a comparison -/

/-- N and V of a comparison differ exactly when the first operand is the lower as a signed number: the exact difference
is negative, and V says whether wrapping turned its sign round (R100). -/
theorem sign_ne_overflow_iff (a b : Word) :
    ((a - b).getLsbD 31 != decide (SignedSubOverflows a b)) = true ↔ a.toInt < b.toInt := by
  have ha := a.toInt_lt
  have ha' := a.le_toInt
  have hb := b.toInt_lt
  have hb' := b.le_toInt
  rw [getLsbD_31, BitVec.msb_eq_toInt, BitVec.toInt_sub, bne_iff_ne, ne_eq, decide_eq_decide,
    Int.bmod_neg_iff (by omega) (by omega)]
  omega

/-- The last column of the table of R100: the signed conditions in the natural order, the unsigned ones reversed
(R133). -/
theorem conditionMeanings_compareFlagsSpec (a b : Word) : ConditionMeanings a b (compareFlagsSpec .unsigned a b) := by
  have hz : (compareFlagsSpec .unsigned a b).z = true ↔ a = b := decide_eq_true_iff
  have hc : (compareFlagsSpec .unsigned a b).c = true ↔ a.toNat ≤ b.toNat := decide_eq_true_iff
  have hv : (compareFlagsSpec .unsigned a b).v = true ↔ SignedSubOverflows a b := decide_eq_true_iff
  have hlt : ((compareFlagsSpec .unsigned a b).n != (compareFlagsSpec .unsigned a b).v) = true ↔ a.toInt < b.toInt :=
    sign_ne_overflow_iff a b
  have hge : ((compareFlagsSpec .unsigned a b).n == (compareFlagsSpec .unsigned a b).v) = true ↔ b.toInt ≤ a.toInt := by
    rw [← Int.not_lt, ← hlt, bne, Bool.not_eq_true', Bool.not_eq_false]
  have hnat : a = b ↔ a.toNat = b.toNat := BitVec.toNat_inj.symm
  have hint : a = b ↔ a.toInt = b.toInt := BitVec.toInt_inj.symm
  refine ⟨hz, ?_, hc, ?_, Iff.rfl, ?_, hv, ?_, ?_, ?_, hge, hlt, ?_, ?_, rfl⟩ <;>
    simp only [condHolds, Bool.and_eq_true, Bool.or_eq_true, Bool.not_eq_true', ← Bool.not_eq_true, hz, hc, hv, hlt,
      hge]
  · omega
  · rfl
  · rw [hnat]; omega
  · rw [hnat]; omega
  · rw [hint]; omega
  · rw [hint]; omega

/-- Settles O28: both comparisons write the flags of the numbers compared. -/
theorem conditionsAfterAComparison : Obligations.ConditionsAfterAComparison := by
  intro s t hunsigned
  refine ⟨fun rn rx bn bx h => ?_, fun rs imm h => ?_⟩
  · obtain ⟨t', ht', hflags, -⟩ := cmp2WritesFourFlags s rn rx bn bx
    cases h.symm.trans ht'
    rw [hflags, hunsigned]
    exact conditionMeanings_compareFlagsSpec ..
  · obtain ⟨t', ht', hflags, -⟩ := cmp1WritesFourFlags s rs imm
    cases h.symm.trans ht'
    rw [hflags, hunsigned]
    exact conditionMeanings_compareFlagsSpec ..

/-! ### In the current sr -/

/-- The flags are bits 31 to 28 of the current sr as it reads (R26). -/
theorem flags_eq_flagsOf_readCur (s : State) : s.flags = flagsOf (s.readCur Reg.sr) := by
  simp only [State.flags, flagsOf, readCur_sr, getLsbD_withBit0]
  rfl

/-- B at an even address, with its condition read off bits 31 to 28 of the current sr. -/
theorem branch_branches_of_iff {k : Cond} {s : State} (off : BitVec 9) (he : EvenWord s.pc) {P : Prop}
    (hP : condHolds k (flagsOf (s.readCur Reg.sr)) = true ↔ P) : Branches s off P (branch k off s) := by
  have h := branch_branches k off s he
  rwa [flags_eq_flagsOf_readCur, hP] at h

/-- Settles O26: each row of the table as a condition on the four bits. -/
theorem branchesFollowTheConditionTable : Obligations.BranchesFollowTheConditionTable := by
  intro s off he
  have row {k : Cond} {P : Prop} (hP : condHolds k (flagsOf (s.readCur Reg.sr)) = true ↔ P) :=
    branch_branches_of_iff off he hP
  refine ⟨row ?_, row ?_, row ?_, row ?_, row ?_, row ?_, row ?_, row ?_, row ?_, row ?_, row ?_, row ?_, row ?_,
    row ?_, row (k := .al) ?_⟩ <;> simp [condHolds, flagsOf]

end Sys2Proof.Machine

/-! PROOF. Updates of different registers do not see each other (R24, R100): O27 and O23. -/

namespace Sys2Proof.Machine

open Sys2Proof

/-! ### The current sr under BAL -/

/-- Stores to two registers of one bank commute. -/
theorem setReg_comm (s : State) (m : Mode) {r r' : Reg} (v v' : Word) (h : r ≠ r') :
    (s.setReg m r v).setReg m r' v' = (s.setReg m r' v').setReg m r v := by
  have hn : (r : Nat) ≠ r' := fun e => h (Fin.ext e)
  cases m <;> simp only [State.setReg, Vector.set_comm _ _ hn]

/-- A write to the current R15 does not see the current sr. -/
theorem writeSel_pc_setReg_sr (s : State) (v x : Word) :
    (s.setReg s.mode Reg.sr v).writeSel .current Reg.pc x =
      mapNext (fun t => t.setReg s.mode Reg.sr v) (s.writeSel .current Reg.pc x) := by
  have hne : Reg.sr ≠ Reg.pc := by decide
  rw [State.writeSel.eq_def, State.writeSel.eq_def, if_pos rfl, if_pos rfl]
  cases x.getLsbD 0 with
  | true => rfl
  | false =>
    change Host.Outcome.next _ = .next _
    rw [State.jump, State.jump, setReg_mode, setReg_params, setReg_comm s s.mode _ _ hne]

/-- BAL is a write of its target to the current R15, with no condition (R101). -/
theorem exec_bal (off : BitVec 9) (s : State) :
    exec (.bal off) s = s.writeSel .current Reg.pc (s.pc + branchOffset off) := rfl

/-- Settles O27: BAL reads the pc alone and writes it. -/
theorem alwaysBranchReadsNoStatus : Obligations.AlwaysBranchReadsNoStatus := by
  intro s off v
  have hpc : (s.setReg s.mode Reg.sr v).pc = s.pc := by
    rw [State.pc, setReg_mode, reg_setReg_of_reg_ne _ _ _ (by decide), State.pc]
  rw [exec_bal, exec_bal, hpc, writeSel_pc_setReg_sr]

/-! ### The alternative bank under an instruction with no selector bit set -/

section
variable (s : State) (b : Vector Word 16)

/-- `s` with the whole alternative bank replaced. -/
def withAlt : State := s.withBank s.mode.other b

theorem withAlt_mode : (withAlt s b).mode = s.mode := withBank_mode ..

theorem withAlt_params : (withAlt s b).params = s.params := withBank_params ..

/-- The current bank does not see the alternative one. -/
theorem reg_withAlt (r : Reg) : (withAlt s b).reg s.mode r = s.reg s.mode r := by
  rw [withAlt, reg_withBank, if_neg (ne_other s.mode)]

theorem readCur_withAlt (r : Reg) : (withAlt s b).readCur r = s.readCur r := by
  rw [State.readCur, State.readCur, withAlt_mode, reg_withAlt]

theorem pc_withAlt : (withAlt s b).pc = s.pc := by
  rw [State.pc, withAlt_mode, reg_withAlt, State.pc]

theorem flags_withAlt : (withAlt s b).flags = s.flags := by
  rw [State.flags, withAlt_mode, reg_withAlt, State.flags]

/-- A store to the current bank commutes with the replacement. -/
theorem setReg_withAlt (r : Reg) (v : Word) :
    (withAlt s b).setReg s.mode r v = withAlt (s.setReg s.mode r v) b := by
  obtain ⟨_, _, mode, _, _, _⟩ := s
  cases mode <;> rfl

theorem advance_withAlt : (withAlt s b).advance = withAlt s.advance b := by
  rw [State.advance, withAlt_mode, pc_withAlt, setReg_withAlt, State.advance]

theorem writeSel_withAlt (r : Reg) (v : Word) :
    (withAlt s b).writeSel .current r v = mapNext (withAlt · b) (s.writeSel .current r v) := by
  rw [State.writeSel.eq_def, State.writeSel.eq_def]
  split
  · cases v.getLsbD 0 with
    | true => rfl
    | false =>
      change Host.Outcome.next _ = .next _
      rw [State.jump, withAlt_mode, withAlt_params, setReg_withAlt, State.jump]
  · change Host.Outcome.next _ = .next _
    rw [State.selMode, withAlt_mode, setReg_withAlt, advance_withAlt, State.selMode]

theorem branch_withAlt (k : Cond) (off : BitVec 9) :
    branch k off (withAlt s b) = mapNext (withAlt · b) (branch k off s) := by
  rw [branch, flags_withAlt, readCur_withAlt, writeSel_withAlt, advance_withAlt, branch]
  split <;> rfl

theorem setFlags_advance_withAlt (f : Flags) :
    ((withAlt s b).setFlags f).advance = withAlt (s.setFlags f).advance b := by
  rw [State.setFlags, withAlt_mode, reg_withAlt, setReg_withAlt, advance_withAlt, State.setFlags]

theorem compare_withAlt (x y : Word) : (withAlt s b).compare x y = mapNext (withAlt · b) (s.compare x y) := by
  rw [State.compare, withAlt_params, setFlags_advance_withAlt, State.compare]
  rfl

theorem shiftImm_withAlt (op : ShiftOp) (rd : Reg) (imm : BitVec 5) :
    shiftImm op rd imm (withAlt s b) = mapNext (withAlt · b) (shiftImm op rd imm s) := by
  rw [shiftImm, readCur_withAlt, writeSel_withAlt, shiftImm]

theorem shiftReg_withAlt (op : ShiftOp) (rd rs : Reg) :
    shiftReg op rd rs (withAlt s b) = mapNext (withAlt · b) (shiftReg op rd rs s) := by
  rw [shiftReg, readCur_withAlt, readCur_withAlt, writeSel_withAlt, shiftReg]
  split <;> rfl

/-- Replacing the alternative bank commutes with every instruction that has no selector bit set. -/
theorem exec_withAlt {i : Instr} (hi : namesAlternative i = false) :
    exec i (withAlt s b) = mapNext (withAlt · b) (exec i s) := by
  cases i
  case beq | bne | bcs | bcc | bmi | bpl | bvs | bvc | bhi | bls | bge | blt | bgt | ble => exact branch_withAlt ..
  case bal off => exact branch_withAlt s b .al off
  case add1 | add2 | sub1 | sub2 =>
    simp only [exec, execAdd1, execAdd2, execSub1, execSub2, readCur_withAlt, withAlt_params, writeSel_withAlt]
  case ldi imm => exact writeSel_withAlt s b Reg.ir (signedImm imm)
  case cmp1 rs imm => simp only [exec, execCmp1, readCur_withAlt, compare_withAlt]
  case cmp2 rn bn bx rx =>
    obtain ⟨rfl, rfl⟩ : bn = .current ∧ bx = .current := by cases bn <;> cases bx <;> simp [namesAlternative] at hi ⊢
    simp only [exec, execCmp2, State.readSel, readCur_withAlt, compare_withAlt]
  case tst rn bn imm =>
    obtain rfl : bn = .current := by cases bn <;> simp [namesAlternative] at hi ⊢
    simp only [exec, execTst, State.readSel, readCur_withAlt, flags_withAlt, setFlags_advance_withAlt]
    rfl
  case mov rd optB optW bd bs rs =>
    obtain ⟨rfl, rfl⟩ : bd = .current ∧ bs = .current := by cases bd <;> cases bs <;> simp [namesAlternative] at hi ⊢
    simp only [exec, execMov, State.readSel, readCur_withAlt, writeSel_withAlt]
  case lslImm | lsrImm | aslImm | asrImm | rolImm | rorImm => exact shiftImm_withAlt ..
  case lslReg | lsrReg | aslReg | asrReg | rolReg | rorReg => exact shiftReg_withAlt ..
  case bnv | reserved0111 | lsh1Reserved | lsh2Reserved | reserved101 | undocumented => rfl

end

/-- Settles O23: the alternative bank of the next state is that of the state, since no instruction changes the mode. -/
theorem alternativeBankIsNeitherSeenNorWritten : Obligations.AlternativeBankIsNeitherSeenNorWritten := by
  intro i s b hi
  refine (exec_withAlt s b hi).trans ?_
  cases h : exec i s with
  | next t => rw [mapNext, mapNext, withAlt, exec_keeps_mode h]
  | fault f => rfl
  | refused r => rfl

end Sys2Proof.Machine

/-! PROOF. The shift function (R150) and LSH (R151, R152): O43, O44, O40, O41, O42. -/

namespace Sys2Proof.Machine

open Sys2Proof

/-! ### The shift function -/

theorem shift_lsl (x : Word) (n : Nat) : shift .lsl x n = x <<< n := by
  rw [shift]
  split
  · next h => rw [h, BitVec.shiftLeft_zero]
  · rfl

theorem shift_asl (x : Word) (n : Nat) : shift .asl x n = x <<< n := shift_lsl x n

theorem shift_lsr (x : Word) (n : Nat) : shift .lsr x n = x >>> n := by
  rw [shift]
  split
  · next h => rw [h, BitVec.ushiftRight_zero]
  · rfl

theorem shift_asr (x : Word) (n : Nat) : shift .asr x n = x.sshiftRight n := by
  rw [shift]
  split
  · next h => rw [h, BitVec.sshiftRight_zero]
  · rfl

theorem shift_rol (x : Word) {n : Nat} (hn : n ≤ 31) : shift .rol x n = x.rotateLeft n := by
  rw [shift, BitVec.rotateLeft_eq_rotateLeftAux_of_lt (by omega), BitVec.rotateLeftAux]
  split
  · next h => subst h; simp [BitVec.ushiftRight_eq_zero]
  · rfl

theorem shift_ror (x : Word) {n : Nat} (hn : n ≤ 31) : shift .ror x n = x.rotateRight n := by
  rw [shift, BitVec.rotateRight_eq_rotateRightAux_of_lt (by omega), BitVec.rotateRightAux]
  split
  · next h => subst h; simp
  · rfl

/-- ROL moves each bit `n` places up, modulo 32. -/
theorem getLsbD_shift_rol (x : Word) {n k : Nat} (hn : n ≤ 31) (hk : k ≤ 31) :
    (shift .rol x n).getLsbD ((k + n) % 32) = x.getLsbD k := by
  rw [shift_rol x hn, BitVec.getLsbD_rotateLeft, Nat.mod_eq_of_lt (show n < 32 by omega)]
  by_cases h : k + n < 32
  · simp [Nat.mod_eq_of_lt h, show ¬ k + n < n by omega, h]
  · have hmod : (k + n) % 32 = k + n - 32 := by omega
    simp [hmod, show k + n - 32 < n by omega, show 32 - n + (k + n - 32) = k by omega]

/-- ROR moves each bit `n` places down, modulo 32. -/
theorem getLsbD_shift_ror (x : Word) {n k : Nat} (hn : n ≤ 31) (hk : k ≤ 31) :
    (shift .ror x n).getLsbD k = x.getLsbD ((k + n) % 32) := by
  rw [shift_ror x hn, BitVec.getLsbD_rotateRight, Nat.mod_eq_of_lt (show n < 32 by omega)]
  by_cases h : k + n < 32
  · simp [Nat.mod_eq_of_lt h, show k < 32 - n by omega, Nat.add_comm n k]
  · have hmod : (k + n) % 32 = k - (32 - n) := by omega
    simp [hmod, show ¬ k < 32 - n by omega, show k < 32 by omega]

/-- Settles O43, one operation after the other. -/
theorem shiftFunctionBitByBit : Obligations.ShiftFunctionBitByBit := by
  intro x n k hn hk
  refine ⟨?_, rfl, ?_, ?_, getLsbD_shift_rol x hn hk, getLsbD_shift_ror x hn hk⟩
  · rw [shift_lsl, BitVec.getLsbD_shiftLeft, decide_eq_true (show k < 32 by omega), Bool.true_and, ← decide_not,
      decide_eq_decide.2 Nat.not_lt]
  · rw [shift_lsr, BitVec.getLsbD_ushiftRight, Nat.add_comm n k]
    by_cases h : k + n ≤ 31
    · rw [decide_eq_true h, Bool.true_and]
    · rw [decide_eq_false h, Bool.false_and, BitVec.getLsbD_of_ge x _ (by omega)]
  · rw [shift_asr, BitVec.getLsbD_sshiftRight, decide_eq_false (show ¬ 32 ≤ k by omega), Bool.not_false, Bool.true_and,
      Nat.add_comm n k, getLsbD_31]
    exact if_congr (by omega) rfl rfl

/-- A word is known from what one of its rotations' bits are. -/
theorem eq_of_rotated_bits {x y : Word} (n : Nat)
    (h : ∀ k ≤ 31, x.getLsbD ((k + n) % 32) = y.getLsbD ((k + n) % 32)) : x = y := by
  apply BitVec.eq_of_getLsbD_eq
  intro j hj
  have hj' := h ((j + 31 * n) % 32) (by omega)
  rwa [show ((j + 31 * n) % 32 + n) % 32 = j by omega] at hj'

/-- Settles O44: where each bit goes, and back. -/
theorem rotatesAreInverse : Obligations.RotatesAreInverse := by
  intro x n hn
  refine ⟨fun h1 => eq_of_rotated_bits n fun k hk => ?_, eq_of_rotated_bits 0 fun k hk => ?_,
    eq_of_rotated_bits n fun k hk => ?_⟩
  · rw [getLsbD_shift_rol x hn hk, getLsbD_shift_ror x (by omega) (by omega),
      show ((k + n) % 32 + (32 - n)) % 32 = k by omega]
  · rw [Nat.add_zero, Nat.mod_eq_of_lt (by omega), getLsbD_shift_ror _ hn hk, getLsbD_shift_rol x hn hk]
  · rw [getLsbD_shift_rol _ hn hk, getLsbD_shift_ror x hn hk]

/-! ### The instructions -/

/-- The six operations by an amount of at most 31, in the library's terms (R150). -/
def shiftResult : ShiftOp → Word → Nat → Word
  | .lsl, x, n => x <<< n
  | .lsr, x, n => x >>> n
  | .asl, x, n => x <<< n
  | .asr, x, n => x.sshiftRight n
  | .rol, x, n => x.rotateLeft n
  | .ror, x, n => x.rotateRight n

theorem shift_eq_shiftResult (op : ShiftOp) (x : Word) {n : Nat} (hn : n ≤ 31) : shift op x n = shiftResult op x n := by
  cases op with
  | lsl => exact shift_lsl x n
  | lsr => exact shift_lsr x n
  | asl => exact shift_asl x n
  | asr => exact shift_asr x n
  | rol => exact shift_rol x hn
  | ror => exact shift_ror x hn

theorem shiftImm_writesResult (op : ShiftOp) (rd : Reg) (imm : BitVec 5) (s : State) :
    WritesResult s .current rd (shiftResult op (s.readCur rd) imm.toNat) (shiftImm op rd imm s) := by
  rw [shiftImm, ← shift_eq_shiftResult op _ (Nat.le_of_lt_succ imm.isLt)]
  exact writeSel_writesResult ..

theorem shiftReg_writesResult (op : ShiftOp) (rd : Reg) {rs : Reg} {s : State} (h : (s.readCur rs).toNat ≤ 31) :
    WritesResult s .current rd (shiftResult op (s.readCur rd) (s.readCur rs).toNat) (shiftReg op rd rs s) := by
  rw [shiftReg, if_neg (by omega), ← shift_eq_shiftResult op _ h]
  exact writeSel_writesResult ..

/-- Settles O40: the six rows at the immediate. -/
theorem shiftByImmediate : Obligations.ShiftByImmediate := by
  intro s rd imm
  have row (op : ShiftOp) := shiftImm_writesResult op rd imm s
  exact ⟨row .lsl, row .lsr, row .asl, row .asr, row .rol, row .ror⟩

/-- Settles O41: the six rows at a register's amount. -/
theorem shiftByRegister : Obligations.ShiftByRegister := by
  intro s rd rs h
  have row (op : ShiftOp) := shiftReg_writesResult op rd h
  exact ⟨row .lsl, row .lsr, row .asl, row .asr, row .rol, row .ror⟩

/-- Settles O42: the six rows test the amount before anything else. -/
theorem shiftAmountAbove31Faults : Obligations.ShiftAmountAbove31Faults := by
  intro s rd rs h
  have row (op : ShiftOp) : shiftReg op rd rs s = .fault (.shiftAmountUndefined (s.readCur rs)) := if_pos h
  exact ⟨row .lsl, row .lsr, row .asl, row .asr, row .rol, row .ror⟩

end Sys2Proof.Machine

/-! PROOF. MOV (R140): its value byte by byte, and O38. -/

namespace Sys2Proof.Machine

open Sys2Proof

/-- The four bytes of a value, the highest first, are the value. -/
theorem bytes_whole (x : Word) : byteOf x 3 ++ byteOf x 2 ++ byteOf x 1 ++ byteOf x 0 = x := by
  apply BitVec.eq_of_getLsbD_eq
  intro k hk
  simp only [byteOf, BitVec.getLsbD_append, BitVec.getLsbD_extractLsb']
  interval_cases k <;> simp

/-- MOVB exchanges the bytes of each half (R140). -/
theorem swapBytes_eq (x : Word) : swapBytes x = byteOf x 2 ++ byteOf x 3 ++ byteOf x 0 ++ byteOf x 1 := by
  apply BitVec.eq_of_getLsbD_eq
  intro k hk
  simp only [swapBytes, byteOf, BitVec.getLsbD_or, BitVec.getLsbD_and, BitVec.getLsbD_shiftLeft,
    BitVec.getLsbD_ushiftRight, BitVec.getLsbD_append, BitVec.getLsbD_extractLsb']
  interval_cases k <;> simp

/-- MOVW exchanges the halves (R140). -/
theorem swapHalves_eq (x : Word) : swapHalves x = byteOf x 1 ++ byteOf x 0 ++ byteOf x 3 ++ byteOf x 2 := by
  apply BitVec.eq_of_getLsbD_eq
  intro k hk
  simp only [swapHalves, byteOf, BitVec.getLsbD_or, BitVec.getLsbD_shiftLeft, BitVec.getLsbD_ushiftRight,
    BitVec.getLsbD_append, BitVec.getLsbD_extractLsb']
  interval_cases k <;> simp

theorem byteOf_append (b3 b2 b1 b0 : Byte) :
    byteOf (b3 ++ b2 ++ b1 ++ b0) 3 = b3 ∧ byteOf (b3 ++ b2 ++ b1 ++ b0) 2 = b2 ∧
    byteOf (b3 ++ b2 ++ b1 ++ b0) 1 = b1 ∧ byteOf (b3 ++ b2 ++ b1 ++ b0) 0 = b0 := by
  simp (disch := omega) only [byteOf, BitVec.extractLsb'_append_eq_of_le, BitVec.extractLsb'_append_eq_of_add_le]
  simp

theorem movValue_eq_reorderBytes (optB optW : Bool) (x : Word) : movValue optB optW x = reorderBytes optB optW x := by
  cases optB <;> cases optW
  · exact (bytes_whole x).symm
  · exact swapHalves_eq x
  · exact swapBytes_eq x
  · obtain ⟨h3, h2, h1, h0⟩ := byteOf_append (byteOf x 2) (byteOf x 3) (byteOf x 0) (byteOf x 1)
    change swapHalves (swapBytes x) = byteOf x 0 ++ byteOf x 1 ++ byteOf x 2 ++ byteOf x 3
    rw [swapBytes_eq, swapHalves_eq, h3, h2, h1, h0]

/-- Settles O38: MOV is a register write of the reordered source. -/
theorem movWritesTheReorderedBytes : Obligations.MovWritesTheReorderedBytes := by
  intro s rd rs optB optW bd bs
  rw [← movValue_eq_reorderBytes]
  exact writeSel_writesResult ..

end Sys2Proof.Machine
